-- ==== Sys2Proof/Word.lean ====
section
/-! DEFINITION. The bit-vector widths of the PKU (spec R7, R8, R50): nothing but names. -/

namespace Sys2Proof

/-- One byte of `Mem` (R50). -/
abbrev Byte := BitVec 8

/-- A host-visible 32-bit register word, and a command word (R7, R20). -/
abbrev Word := BitVec 32

/-- The 64-bit registers OFF, BASE and LEN (R7). -/
abbrev DWord := BitVec 64

/-- The 128-bit data register DATA (R7, R31). -/
abbrev Data := BitVec 128

end Sys2Proof
end

