-- ==== Sys2Proof/Config.lean ====
section
/-! DEFINITION. What an implementation fixes (the parameters of R6, with the values State.reset takes for them) and
the free values: constants without a body, for what the spec calls "any value" or "a draw". -/

namespace Sys2Proof

/-- The legal values of the parameter PTRW (R6, G1): 16, 32 or 64. -/
inductive PtrWidth
  | p16
  | p32
  | p64
  deriving DecidableEq, Repr

/-- PTRW as a number of bits (R6). -/
def PtrWidth.bits : PtrWidth → Nat
  | .p16 => 16
  | .p32 => 32
  | .p64 => 64

/-- CFG.PTRWC, the width code of PTRW (R21). -/
def PtrWidth.code : PtrWidth → BitVec 3
  | .p16 => 0b010#3
  | .p32 => 0b011#3
  | .p64 => 0b100#3

namespace Config

/-- PTRW of the one unit of `State.reset`. DESIGN CHOICE (log 1): the spec fixes none; 95_test_vectors.md assumes 32. -/
def resetPtrw : PtrWidth := .p32

/-- ADDRW of `State.reset`. DESIGN CHOICE (log 1): the spec fixes none; 95_test_vectors.md assumes 32. -/
def resetAddrw : Nat := 32

/-- REGBASE of the one unit of `State.reset`. DESIGN CHOICE (log 1): any 64-byte aligned address is legal (R6). -/
def resetRegbase : Nat := 0

/-- FREE VALUE (log 4): draw `n` of a byte, for a byte both sides of a race write and for a host read of a byte of
a busy PACK's span (R63 a, b). -/
opaque freeByte : Nat → Byte

/-- FREE VALUE (log 4): draw `n` of a word, for a host read of DATA0..DATA3 while BUSY = 1 (R36). -/
opaque freeWord : Nat → Word

/-- FREE VALUE (log 4): draw `n` of a 128-bit value, for the DATA result of a raced UNPACK (R63 c). -/
opaque freeData : Nat → Data

/-- FREE VALUE (log 4): draw `n` of the choice "new byte" (true) or "old byte" (false) for a span byte of a PACK that
reset abandons (R251). -/
opaque freeTorn : Nat → Bool

end Config

end Sys2Proof
end

