-- ==== Sys2Proof/Syntax.lean ====
section
/-! DEFINITION. Syntax: the 26 commands (R74), the command word's fields (R70), the register names (R20), the host
notation and its pseudo-instructions (R77, R78), the composite types (R200 to R205), host accesses and turns. -/

namespace Sys2Proof

/-- The operation a command performs (R70). -/
inductive Op
  | unpack
  | pack
  deriving DecidableEq, Repr

/-- The type codes of R72. -/
inductive TypeCode
  | bool
  | u8
  | u16
  | u32
  | u64
  | u128
  | uptr
  | i8
  | i16
  | i32
  | i64
  | i128
  | iptr
  deriving DecidableEq, Repr

/-- The 26 commands, one constructor per row of spec/opcode_table.json (R74). A command word has no operand field
(R73), so no constructor has an argument. -/
inductive Instr
  | unpackBool
  | packBool
  | unpackU8
  | packU8
  | unpackU16
  | packU16
  | unpackU32
  | packU32
  | unpackU64
  | packU64
  | unpackU128
  | packU128
  | unpackUptr
  | packUptr
  | unpackI8
  | packI8
  | unpackI16
  | packI16
  | unpackI32
  | packI32
  | unpackI64
  | packI64
  | unpackI128
  | packI128
  | unpackIptr
  | packIptr
  deriving DecidableEq, Repr

/-- The operation of a command (R74, the table's columns). -/
def Instr.op : Instr → Op
  | .unpackBool | .unpackU8 | .unpackU16 | .unpackU32 | .unpackU64 | .unpackU128 | .unpackUptr => .unpack
  | .unpackI8 | .unpackI16 | .unpackI32 | .unpackI64 | .unpackI128 | .unpackIptr => .unpack
  | .packBool | .packU8 | .packU16 | .packU32 | .packU64 | .packU128 | .packUptr => .pack
  | .packI8 | .packI16 | .packI32 | .packI64 | .packI128 | .packIptr => .pack

/-- The type code of a command (R74, the table's rows). -/
def Instr.typeCode : Instr → TypeCode
  | .unpackBool | .packBool => .bool
  | .unpackU8 | .packU8 => .u8
  | .unpackU16 | .packU16 => .u16
  | .unpackU32 | .packU32 => .u32
  | .unpackU64 | .packU64 => .u64
  | .unpackU128 | .packU128 => .u128
  | .unpackUptr | .packUptr => .uptr
  | .unpackI8 | .packI8 => .i8
  | .unpackI16 | .packI16 => .i16
  | .unpackI32 | .packI32 => .i32
  | .unpackI64 | .packI64 => .i64
  | .unpackI128 | .packI128 => .i128
  | .unpackIptr | .packIptr => .iptr

/-- Whether a type code is one of the signed codecs, S = 1 (R71, R72). -/
def TypeCode.isSigned : TypeCode → Bool
  | .i8 | .i16 | .i32 | .i64 | .i128 | .iptr => true
  | .bool | .u8 | .u16 | .u32 | .u64 | .u128 | .uptr => false

/-- The four fields of a command word (R70). -/
structure CmdFields where
  op : BitVec 2
  wc : BitVec 3
  s  : BitVec 1
  z  : BitVec 26
  deriving DecidableEq, Repr

/-- The sixteen word registers of the block, reserved offsets included (R20, R32). -/
inductive Reg
  | cfg
  | cmd
  | status
  | rsv0C
  | offLo
  | offHi
  | baseLo
  | baseHi
  | lenLo
  | lenHi
  | rsv28
  | rsv2C
  | data0
  | data1
  | data2
  | data3
  deriving DecidableEq, Repr

/-- The size of a host access; only `word` is decoded (R20, R38). `wide` is any access of more than 32 bits. -/
inductive AccessSize
  | byte
  | half
  | word
  | wide
  deriving DecidableEq, Repr

/-- One host access: to the host's address space (where the register blocks lie, R20) or to `Mem` (R50). -/
inductive BusOp
  | regWrite (addr : Nat) (size : AccessSize) (w : Word)
  | regRead (addr : Nat) (size : AccessSize)
  | memWrite (addr : Nat) (b : Byte)
  | memRead (addr : Nat)
  deriving DecidableEq, Repr

/-- Who moves in a step: the host's program by one statement, any host agent by one access, a unit by its completion
step (R112), or the reset of a unit (R250). -/
inductive Turn
  | host
  | access (op : BusOp)
  | complete (u : Nat)
  | reset (u : Nat)
  deriving DecidableEq, Repr

/-- A host-local name (R77): a scalar, an element of a host array (P3 of 95_test_vectors.md), or one of the names d0..d3
that `getdata` uses (R78). -/
inductive Var
  | name (n : Nat)
  | elem (n k : Nat)
  | d (k : Nat)
  deriving DecidableEq, Repr

/-- Host arithmetic on unbounded integers (R77). `slice hi lo e` is `e[hi:lo]` (R8). -/
inductive Expr
  | lit (v : Int)
  | var (x : Var)
  | elem (n : Nat) (i : Expr)
  | add (a b : Expr)
  | sub (a b : Expr)
  | mul (a b : Expr)
  | band (a b : Expr)
  | slice (hi lo : Nat) (e : Expr)
  deriving DecidableEq, Repr

/-- The comparisons a host condition is made of. DESIGN CHOICE (log 14): R77 gives `cond` no grammar; a condition here is
exactly one comparison of two expressions. -/
inductive Cmp
  | eq
  | ne
  | lt
  | le
  | gt
  | ge
  deriving DecidableEq, Repr

/-- A primitive statement of the host notation (R77). Every statement makes at most one access; a `mem` line of several
bytes is several `memB` (`HostLine.expand`). `u` numbers the unit whose register block is accessed (R233). -/
inductive HostStmt
  | wr (u : Nat) (r : Reg) (e : Expr)
  | rd (u : Nat) (r : Reg) (x : Var)
  | wait (u : Nat)
  | memB (a : Expr) (b : Byte)
  | letE (x : Var) (e : Expr)
  | label (l : Nat)
  | ifGoto (a : Expr) (c : Cmp) (b : Expr) (l : Nat)
  deriving DecidableEq, Repr

/-- A line of a host program: a primitive statement, `cmd`, `mem`, or a pseudo-instruction (R77, R78). -/
inductive HostLine
  | prim (st : HostStmt)
  | cmd (u : Nat) (i : Instr)
  | mem (a : Expr) (bs : List Byte)
  | setbuf (u : Nat) (base len : Expr)
  | setoff (u : Nat) (o : Expr)
  | setdata (u : Nat) (v : Expr)
  | getdata (u : Nat) (x : Var)
  | clr (u : Nat)
  | unpack (u : Nat) (tc : TypeCode) (o : Expr) (x : Var)
  | pack (u : Nat) (tc : TypeCode) (o v : Expr)
  deriving DecidableEq, Repr

/-- The types of 45_composite.md: a primitive, an array `[T; n]`, and a tuple, which `PK` defines as a head and a tail
(R203): `unit` is the empty tuple (R204). -/
inductive Ty
  | prim (tc : TypeCode)
  | array (elem : Ty) (n : Nat)
  | unit
  | cons (head tail : Ty)
  deriving DecidableEq, Repr

end Sys2Proof
end

