-- ==== Sys2Proof/WellFormed.lean ====
section
/-! DEFINITION. Well-formedness of terms: the legality of a command word's fields (R74, R75), of the parameters (R6), of
composite types (R203) and of host programs (R77). Each check is a Bool. -/

namespace Sys2Proof

/-- OP = 0b00 and OP = 0b11 are reserved (R70). -/
def CmdFields.opLegal (f : CmdFields) : Bool := f.op == 0b01#2 || f.op == 0b10#2

/-- WC = 0b111 is reserved (R72). -/
def CmdFields.wcLegal (f : CmdFields) : Bool := f.wc != 0b111#3

/-- There is no signed boolean: (WC = 0b000, S = 1) is reserved (R72). -/
def CmdFields.signLegal (f : CmdFields) : Bool := !(f.wc == 0b000#3 && f.s == 1#1)

/-- Z, bits 31:6, must be zero (R70). -/
def CmdFields.zLegal (f : CmdFields) : Bool := f.z == 0#26

/-- The fields of a legal command word (R74): one of the 26. -/
def CmdFields.wf (f : CmdFields) : Bool := f.opLegal && f.wcLegal && f.signLegal && f.zLegal

/-- ADDRW is 1 to 64 (R6). -/
def addrwLegal (addrw : Nat) : Bool := decide (1 ≤ addrw) && decide (addrw ≤ 64)

/-- REGBASE is 64-byte aligned (R6). -/
def regbaseLegal (regbase : Nat) : Bool := regbase % 64 == 0

/-- Whether a type is a tuple, written as a head and a tail (R203). -/
def Ty.isTuple : Ty → Bool
  | .unit => true
  | .cons _ _ => true
  | .prim _ => false
  | .array _ _ => false

/-- A composite type is well formed when every tail of a `cons` is itself a tuple (R203, R205). -/
def Ty.wf : Ty → Bool
  | .prim _ => true
  | .array e _ => e.wf
  | .unit => true
  | .cons h t => h.wf && t.isTuple && t.wf

/-- The label a statement defines (R77). -/
def HostStmt.defines (l : Nat) : HostStmt → Bool
  | .label l' => l' == l
  | .wr _ _ _ | .rd _ _ _ | .wait _ | .memB _ _ | .letE _ _ | .ifGoto _ _ _ _ => false

/-- The unit whose register block a statement accesses, if it accesses one (R77). -/
def HostStmt.unit? : HostStmt → Option Nat
  | .wr u _ _ | .rd u _ _ | .wait u => some u
  | .memB _ _ | .letE _ _ | .label _ | .ifGoto _ _ _ _ => none

/-- The label a statement may continue at (R77). -/
def HostStmt.target? : HostStmt → Option Nat
  | .ifGoto _ _ _ l => some l
  | .wr _ _ _ | .rd _ _ _ | .wait _ | .memB _ _ | .letE _ _ | .label _ => none

/-- A host program (R77) accesses only units that exist, and every label it may continue at is defined exactly once. -/
def progWf (nunits : Nat) (prog : List HostStmt) : Bool :=
  prog.all fun st =>
    (match st.unit? with
      | some u => decide (u < nunits)
      | none => true) &&
    (match st.target? with
      | some l => prog.countP (HostStmt.defines l) == 1
      | none => true)

end Sys2Proof
end

