-- ==== Sys2Proof/Decode.lean ====
section
/-! DEFINITION. Decoding a command word into a command (R70 to R76), total on every 32-bit word and rejecting by name, and
the encoder written from the same tables. A command is one 32-bit register write (R22), so there is no byte stream
and no length decoding (R76). -/

namespace Sys2Proof

/-- Why a command word is illegal (R75). Every one of them is EILL to the unit (R222). -/
inductive DecodeError
  | reservedZ
  | reservedOp
  | reservedWidth
  | signedBool
  deriving DecidableEq, Repr

/-- Split a command word into its fields (R70). -/
def CmdFields.ofWord (w : Word) : CmdFields :=
  { op := w.extractLsb' 0 2, wc := w.extractLsb' 2 3, s := w.extractLsb' 5 1, z := w.extractLsb' 6 26 }

/-- The OP field (R70): 0b01 UNPACK, 0b10 PACK, 0b00 and 0b11 reserved. -/
def decodeOp (op : BitVec 2) : Except DecodeError Op :=
  if op = 0b01#2 then .ok .unpack
  else if op = 0b10#2 then .ok .pack
  else .error .reservedOp

/-- The type code (WC, S) (R71, R72). -/
def decodeType (wc : BitVec 3) (s : BitVec 1) : Except DecodeError TypeCode :=
  let signed := s == 1#1
  if wc = 0b000#3 then (if signed then .error .signedBool else .ok .bool)
  else if wc = 0b001#3 then .ok (if signed then .i8 else .u8)
  else if wc = 0b010#3 then .ok (if signed then .i16 else .u16)
  else if wc = 0b011#3 then .ok (if signed then .i32 else .u32)
  else if wc = 0b100#3 then .ok (if signed then .i64 else .u64)
  else if wc = 0b101#3 then .ok (if signed then .i128 else .u128)
  else if wc = 0b110#3 then .ok (if signed then .iptr else .uptr)
  else .error .reservedWidth

/-- The command of an operation and a type code (R74). -/
def Instr.ofParts : Op → TypeCode → Instr
  | .unpack, .bool => .unpackBool
  | .unpack, .u8 => .unpackU8
  | .unpack, .u16 => .unpackU16
  | .unpack, .u32 => .unpackU32
  | .unpack, .u64 => .unpackU64
  | .unpack, .u128 => .unpackU128
  | .unpack, .uptr => .unpackUptr
  | .unpack, .i8 => .unpackI8
  | .unpack, .i16 => .unpackI16
  | .unpack, .i32 => .unpackI32
  | .unpack, .i64 => .unpackI64
  | .unpack, .i128 => .unpackI128
  | .unpack, .iptr => .unpackIptr
  | .pack, .bool => .packBool
  | .pack, .u8 => .packU8
  | .pack, .u16 => .packU16
  | .pack, .u32 => .packU32
  | .pack, .u64 => .packU64
  | .pack, .u128 => .packU128
  | .pack, .uptr => .packUptr
  | .pack, .i8 => .packI8
  | .pack, .i16 => .packI16
  | .pack, .i32 => .packI32
  | .pack, .i64 => .packI64
  | .pack, .i128 => .packI128
  | .pack, .iptr => .packIptr

/-- Decode the fields of a command word: Z must be zero, then OP and the type code must be legal (R74, R75). -/
def decodeFields (f : CmdFields) : Except DecodeError Instr :=
  if f.z = 0#26 then
    match decodeOp f.op with
    | .error e => .error e
    | .ok op =>
      match decodeType f.wc f.s with
      | .error e => .error e
      | .ok tc => .ok (Instr.ofParts op tc)
  else .error .reservedZ

/-- Decode a command word (R74, R76): legality depends on the word alone. -/
def decode (w : Word) : Except DecodeError Instr := decodeFields (CmdFields.ofWord w)

/-- The OP code of an operation (R70). -/
def Op.code : Op → BitVec 2
  | .unpack => 0b01#2
  | .pack => 0b10#2

/-- The width code WC of a type code (R72). -/
def TypeCode.wc : TypeCode → BitVec 3
  | .bool => 0b000#3
  | .u8 | .i8 => 0b001#3
  | .u16 | .i16 => 0b010#3
  | .u32 | .i32 => 0b011#3
  | .u64 | .i64 => 0b100#3
  | .u128 | .i128 => 0b101#3
  | .uptr | .iptr => 0b110#3

/-- The S bit of a type code (R71). -/
def TypeCode.s (tc : TypeCode) : BitVec 1 := if tc.isSigned then 1#1 else 0#1

/-- The fields of a command's word (R74). -/
def Instr.fields (i : Instr) : CmdFields :=
  { op := i.op.code, wc := i.typeCode.wc, s := i.typeCode.s, z := 0#26 }

/-- Put the fields of a command word together: `Z ++ S ++ WC ++ OP` (R70). -/
def CmdFields.toWord (f : CmdFields) : Word := f.z ++ f.s ++ f.wc ++ f.op

/-- The word of a command (R74): OP | WC << 2 | S << 5. -/
def encode (i : Instr) : Word := i.fields.toWord

/-- A command is well formed when its fields are those of a legal word (R74). -/
def Instr.wf (i : Instr) : Bool := i.fields.wf

/-- The command of a legal word, if the word is legal. -/
def decode? (w : Word) : Option Instr :=
  match decode w with
  | .ok i => some i
  | .error _ => none

/-- The command the decoder reads from a table word of `nbits` bits (the bits above are zero); a command is 32 bits
(R70), so a word with a bit above 31 is no command. -/
def decodeTableWord (nbits w : Nat) : Option Instr :=
  if w % 2 ^ nbits < 2 ^ 32 then decode? (BitVec.ofNat 32 (w % 2 ^ nbits)) else none

end Sys2Proof
end

