-- ==== Sys2Proof/Machine/State.lean ====
section
/-! DEFINITION. The state of the machine as plain data: the memory, the units with their registers, the host, and the
model's own fields; the reasons a step can stop; the state after reset. -/

namespace Sys2Proof.Machine

open Sys2Proof

/-- `Mem` (R50): address and byte, in the canonical form of `Memory.wf`. -/
abbrev Memory := List Host.Cell

/-- STATUS bits 5:0 (R23), one field a bit; bits 31:6 hold nothing. -/
structure Status where
  busy  : Bool
  done  : Bool
  ecap  : Bool
  eill  : Bool
  ewrap : Bool
  ebusy : Bool
  deriving DecidableEq, Repr

/-- One PKU instance (R20, R233): its parameters PTRW and REGBASE (R6), its registers (R20), and the model's own record
`raced` of the byte addresses of the span of the command in flight that another agent writes in the command's busy
interval (R63, log 8). CFG is computed from the parameters (R21). -/
structure PkuUnit where
  ptrw    : PtrWidth
  regbase : Nat
  cmd     : Word
  status  : Status
  off     : DWord
  base    : DWord
  len     : DWord
  data    : Data
  raced   : List Nat
  deriving DecidableEq, Repr

/-- The host as the spec's programs use it (R77): its program, the position in it, and its names' values. -/
structure HostState where
  prog : List HostStmt
  pos  : Nat
  vars : List (Var × Int)
  deriving DecidableEq, Repr

/-- The machine. `addrw`, `mem` and `units` are the spec's (R6, R50, R20, R62), `host` is R77's; `rdReg` and `rdMem`
are the results of the last raw host reads (log 15); `cur` is the unit whose command is run (log 6); `schedule` says who
moves next (log 5); `draws` counts the free values drawn (log 4). -/
structure State where
  addrw    : Nat
  mem      : Memory
  units    : List PkuUnit
  host     : HostState
  rdReg    : Word
  rdMem    : Byte
  cur      : Nat
  schedule : List Turn
  draws    : Nat
  deriving DecidableEq, Repr

/-- The four faults of the PKU (R220), each recorded only as its STATUS bit. -/
inductive FaultCode
  | ecap
  | eill
  | ewrap
  | ebusy
  deriving DecidableEq, Repr

/-- Why the machine stops. The PKU's own four faults (R220) are not here: they are STATUS bits and next states. -/
inductive Fault
  /-- Raised by a command, a turn or a host statement that names a unit the machine does not have (R6: NUNITS). Safe: the
  spec gives nothing to do there. -/
  | noSuchUnit
  /-- Raised by a host access to a byte address of `Mem` that is not below 2^ADDRW, and by a command in flight whose span is
  not inside `Mem`, which R113 shows cannot have been accepted (R50, log 12, log 13). Safe. -/
  | addressOutsideMem
  /-- Raised by a completion or a reset of a busy unit whose CMD is no legal word: no such command can have been accepted
  (R111, R112, log 13). Safe. -/
  | inFlightIllegal
  /-- Raised by a host statement that uses a name never bound (R77, log 14). Safe. -/
  | hostNameUnbound
  /-- Raised by a host jump to a label that the program does not define (R77, log 14). Safe. -/
  | hostLabelMissing
  deriving DecidableEq, Repr

/-- Why the model gives no meaning. -/
inductive Refusal
  /-- Raised by an arm of `exec` that has no meaning yet. Safe. -/
  | notModelled (mnemonic : String)
  /-- Raised by a host access to a host address outside every unit's register block: what lies there is the platform's
  (R60, R234, log 11). Safe. -/
  | outsideRegisterBlocks
  deriving DecidableEq, Repr

/-- STATUS after reset (R37, R250): idle, not halted. -/
def Status.reset : Status :=
  { busy := false, done := false, ecap := false, eill := false, ewrap := false, ebusy := false }

/-- A unit right after reset (R37, R250): registers zero, the parameters kept. -/
def PkuUnit.ofReset (ptrw : PtrWidth) (regbase : Nat) : PkuUnit :=
  { ptrw := ptrw, regbase := regbase, cmd := 0#32, status := Status.reset, off := 0#64, base := 0#64, len := 0#64,
    data := 0#128, raced := [] }

/-- The machine right after reset (R37, R250): one unit with the parameters of `Config` (log 1), memory with nothing
listed (log 3), no host program, nothing scheduled. -/
def State.reset : State :=
  { addrw := Config.resetAddrw, mem := [], units := [PkuUnit.ofReset Config.resetPtrw Config.resetRegbase],
    host := { prog := [], pos := 0, vars := [] }, rdReg := 0#32, rdMem := 0#8, cur := 0, schedule := [], draws := 0 }

end Sys2Proof.Machine
end

