-- ==== Sys2Proof/Machine/Memory.lean ====
section
/-! DEFINITION. Memory operations (R50, R51): reading and writing one byte, the canonical form, and the size of `Mem`. -/

namespace Sys2Proof.Machine

open Sys2Proof

/-- What an unlisted address reads as. DESIGN CHOICE (log 3): power-up contents are any value (I9). -/
def unlisted : Byte := 0#8

/-- The canonical form: addresses strictly rising, and no entry equal to what an unlisted address reads as. -/
def Memory.wf : Memory → Bool
  | [] => true
  | (a, b) :: m => b != unlisted && m.all (fun c => decide (a < c.1)) && Memory.wf m

/-- `MemRead(a, 1)` (R51). -/
def Memory.read : Memory → Nat → Byte
  | [], _ => unlisted
  | (a, b) :: m, x => if x = a then b else Memory.read m x

/-- `MemWrite(a, 1, v)` (R51), keeping the canonical form. -/
def Memory.write : Memory → Nat → Byte → Memory
  | [], x, v => if v = unlisted then [] else [(x, v)]
  | (a, b) :: m, x, v =>
    if x < a then (if v = unlisted then (a, b) :: m else (x, v) :: (a, b) :: m)
    else if x = a then (if v = unlisted then m else (x, v) :: m)
    else (a, b) :: Memory.write m x v

/-- The number of bytes of `Mem` (R50). -/
def memBytes (addrw : Nat) : Nat := 2 ^ addrw

end Sys2Proof.Machine
end

