-- ==== Sys2Proof/Machine/Flags.lean ====
section
/-! DEFINITION. Every computation on STATUS (R23 to R27): halting, what issue and completion write, raising a fault's bit,
write-1-to-clear, and the word a read returns. No command sets a flag from its data (R39). -/

namespace Sys2Proof.Machine

open Sys2Proof

/-- The cause code of a fault is its STATUS bit number (R27). -/
def FaultCode.code : FaultCode → Nat
  | .ecap => 2
  | .eill => 3
  | .ewrap => 4
  | .ebusy => 5

/-- The unit is halted when STATUS[5:2] is not zero (R27, R228). -/
def Status.halted (st : Status) : Bool := st.ecap || st.eill || st.ewrap || st.ebusy

/-- `STATUS.DONE <- 0`, by every CMD write that is not ignored (R26, R111). -/
def Status.clearDone (st : Status) : Status := { st with done := false }

/-- `STATUS.BUSY <- 1`: the command is accepted (R111). -/
def Status.accept (st : Status) : Status := { st with busy := true }

/-- `STATUS.BUSY <- 0 ; STATUS.DONE <- 1`: the completion step (R112). -/
def Status.complete (st : Status) : Status := { st with busy := false, done := true }

/-- `raise`: set the fault's STATUS bit (R12, R226). -/
def Status.raise (st : Status) : FaultCode → Status
  | .ecap => { st with ecap := true }
  | .eill => { st with eill := true }
  | .ewrap => { st with ewrap := true }
  | .ebusy => { st with ebusy := true }

/-- A write of `w` to STATUS (R23): bits 5:1 are write-1-to-clear, bit 0 and bits 31:6 are not written. -/
def Status.w1c (st : Status) (w : Word) : Status :=
  { busy := st.busy
    done := st.done && !w.getLsbD 1
    ecap := st.ecap && !w.getLsbD 2
    eill := st.eill && !w.getLsbD 3
    ewrap := st.ewrap && !w.getLsbD 4
    ebusy := st.ebusy && !w.getLsbD 5 }

/-- The word a read of STATUS returns (R23): bits 31:6 are zero. -/
def Status.toWord (st : Status) : Word :=
  0#26 ++ BitVec.ofBool st.ebusy ++ BitVec.ofBool st.ewrap ++ BitVec.ofBool st.eill ++ BitVec.ofBool st.ecap ++
    BitVec.ofBool st.done ++ BitVec.ofBool st.busy

end Sys2Proof.Machine
end

