-- ==== Sys2Proof/Machine/Kernel.lean ====
section
/-! DEFINITION. The field kernel: the normative definitions by bit position (R103, R104) and the document's algorithms by
bytes (R105, R106), which the spec derives from them. A field value of width W is a natural number below 2^W (R8). -/

namespace Sys2Proof.Machine

open Sys2Proof

/-- The buffer bit at position `p` (R9, R52): numeric bit `7 - (p mod 8)` of the byte at BASE + (p div 8). -/
def bufBit (m : Memory) (base p : Nat) : Bool := (Memory.read m (base + p / 8)).getLsbD (7 - p % 8)

/-- `nb`, the number of bytes a field of width `W` at offset `o` spans (R101). -/
def spanBytes (o W : Nat) : Nat := (o % 8 + W + 7) / 8

/-- The addresses of the span of a field (R58, R101). -/
def spanAddrs (base o W : Nat) : List Nat := (List.range (spanBytes o W)).map (fun i => base + o / 8 + i)

/-- `Extract(o, W)` (R103): the bits at positions o .. o+W-1, the first one most significant. -/
def extract (m : Memory) (base o : Nat) : Nat → Nat
  | 0 => 0
  | W + 1 => 2 * extract m base o W + (bufBit m base (o + W)).toNat

/-- A byte from its eight bits by position: `f 0` is the most significant (R9). -/
def byteOfBits (f : Nat → Bool) : Byte :=
  BitVec.ofBool (f 0) ++ BitVec.ofBool (f 1) ++ BitVec.ofBool (f 2) ++ BitVec.ofBool (f 3) ++ BitVec.ofBool (f 4) ++
    BitVec.ofBool (f 5) ++ BitVec.ofBool (f 6) ++ BitVec.ofBool (f 7)

/-- The merged value of buffer byte `q` (R104): a position inside the field takes its bit of `v`, any other keeps its
bit of `old`. -/
def mergeByte (old : Byte) (q o W v : Nat) : Byte :=
  byteOfBits fun t =>
    if o ≤ 8 * q + t ∧ 8 * q + t < o + W then v.testBit (W - 1 - (8 * q + t - o)) else old.getLsbD (7 - t)

/-- The first `n` bytes of `Insert`'s loop (R104). Each span byte is written once; its old value is read from the memory
before the command, since no other iteration writes it (log 17). -/
def insertLoop (m : Memory) (base o W v : Nat) : Nat → Memory
  | 0 => m
  | n + 1 =>
    Memory.write (insertLoop m base o W v n) (base + (o / 8 + n))
      (mergeByte (Memory.read m (base + (o / 8 + n))) (o / 8 + n) o W v)

/-- `Insert(o, W, v)` (R104). -/
def insertField (m : Memory) (base o W v : Nat) : Memory := insertLoop m base o W v (spanBytes o W)

/-- The loop of `ExtractBytes` (R105): `n` bytes taken, every shift truncated to `N` bits. -/
def extractBytesLoop (m : Memory) (base o N : Nat) : Nat → Nat
  | 0 => 0
  | n + 1 =>
    ((extractBytesLoop m base o N n <<< 8) ||| ((Memory.read m (base + o / 8 + n)).toNat <<< (o % 8))) % 2 ^ N

/-- `ExtractBytes(o, N)` (R105), for N a multiple of 8. -/
def extractBytes (m : Memory) (base o N : Nat) : Nat :=
  if o % 8 = 0 then extractBytesLoop m base o N (N / 8)
  else extractBytesLoop m base o N (N / 8) ||| ((Memory.read m (base + o / 8 + N / 8)).toNat >>> (8 - o % 8))

/-- `sh`, how far the value is shifted left in the span frame (R106). -/
def frameShift (o W : Nat) : Nat := 8 * spanBytes o W - W - o % 8

/-- The first `n` bytes of `InsertBytes` (R106): mask and OR in the span frame. -/
def insertBytesLoop (m : Memory) (base o W v : Nat) : Nat → Memory
  | 0 => m
  | n + 1 =>
    let s := 8 * (spanBytes o W - 1 - n)
    let fb := BitVec.ofNat 8 ((v <<< frameShift o W) >>> s)
    let mb := BitVec.ofNat 8 (((2 ^ W - 1) <<< frameShift o W) >>> s)
    Memory.write (insertBytesLoop m base o W v n) (base + (o / 8 + n))
      ((Memory.read m (base + (o / 8 + n)) &&& ~~~mb) ||| fb)

/-- `InsertBytes(o, W, v)` (R106), the corrected algorithm of C1. -/
def insertBytes (m : Memory) (base o W v : Nat) : Memory := insertBytesLoop m base o W v (spanBytes o W)

end Sys2Proof.Machine
end

