-- ==== Sys2Proof/Machine/Operands.lean ====
section
/-! DEFINITION. Operand assembly (R73): the width of a type code, the value of PACK, the extension of UNPACK's result, and the
two conditions on the operands that issue checks. -/

namespace Sys2Proof.Machine

open Sys2Proof

/-- W(tc) (R72, R100); `p` is the unit's PTRW. -/
def typeWidth (p : PtrWidth) : TypeCode → Nat
  | .bool => 1
  | .u8 | .i8 => 8
  | .u16 | .i16 => 16
  | .u32 | .i32 => 32
  | .u64 | .i64 => 64
  | .u128 | .i128 => 128
  | .uptr | .iptr => p.bits

/-- The value operand of PACK, DATA[W-1:0] (R31). -/
def packValue (d : Data) (W : Nat) : Nat := d.toNat % 2 ^ W

/-- `zext_128` of a W-bit value (R8). -/
def zext128 (_W u : Nat) : Data := BitVec.ofNat 128 u

/-- `sext_128` of a W-bit value (R8): the value if its bit W-1 is 0, else the value + 2^128 - 2^W. -/
def sext128 (W u : Nat) : Data := BitVec.ofNat 128 (if u.testBit (W - 1) then u + 2 ^ 128 - 2 ^ W else u)

/-- The extension UNPACK applies for a type code (R31, R112). -/
def typeExtend (tc : TypeCode) : Nat → Nat → Data := if tc.isSigned then sext128 else zext128

/-- `OFF + W <= 8 * LEN` on unbounded integers (R11, R102). -/
def capacityOk (off len : DWord) (W : Nat) : Bool := decide (off.toNat + W ≤ 8 * len.toNat)

/-- `BASE + LEN <= 2^ADDRW` on unbounded integers (R11, R224). -/
def windowOk (addrw : Nat) (base len : DWord) : Bool := decide (base.toNat + len.toNat ≤ memBytes addrw)

/-- Whether every byte of a field's span is an address of `Mem` (R50, R113). -/
def spanInMem (addrw base o W : Nat) : Bool := decide (base + o / 8 + spanBytes o W ≤ memBytes addrw)

end Sys2Proof.Machine
end

