-- ==== Sys2Proof/Machine/Ops.lean ====
section
/-! DEFINITION. The shared operations of every command: the races of R63, raising a fault (R226), issue (R111), completion
(R112), and the reset of a unit (R250, R251). -/

namespace Sys2Proof.Machine

open Sys2Proof

/-- The unit whose command is being run (log 6). -/
def State.unit? (s : State) : Option PkuUnit := s.units[s.cur]?

/-- Replace unit `k`. -/
def State.putUnit (s : State) (k : Nat) (r : PkuUnit) : State := { s with units := s.units.set k r }

/-- Put back the unit whose command is being run. -/
def State.setUnit (s : State) (r : PkuUnit) : State := s.putUnit s.cur r

/-- The command in flight (R34): STATUS.BUSY = 1 together with CMD. -/
def PkuUnit.inFlight (r : PkuUnit) : Option Instr := if r.status.busy then decode? r.cmd else none

/-- The span of the command in flight (R58): the byte addresses it may access. Empty when there is none. -/
def PkuUnit.span (r : PkuUnit) : List Nat :=
  match r.inFlight with
  | some i => spanAddrs r.base.toNat r.off.toNat (typeWidth r.ptrw i.typeCode)
  | none => []

/-- The byte addresses the command in flight writes (R58): the span of a PACK, none of an UNPACK. -/
def PkuUnit.writeSpan (r : PkuUnit) : List Nat :=
  match r.inFlight with
  | some i => if i.op = .pack then r.span else []
  | none => []

/-- Another agent writes the addresses `ws` in the busy interval: those of the span are raced (R63, log 8). -/
def PkuUnit.noteWrites (ws : List Nat) (r : PkuUnit) : PkuUnit :=
  { r with raced := r.raced ++ r.span.filter (fun a => ws.contains a && !r.raced.contains a) }

/-- The addresses that the commands in flight of the units other than `k` write. -/
def otherWrites (k : Nat) (us : List PkuUnit) : List Nat :=
  (us.mapIdx fun j v => if j = k then [] else v.writeSpan).flatten

/-- Record in the units other than `k` that the addresses `ws` are written in their busy intervals. -/
def noteOthers (k : Nat) (ws : List Nat) (us : List PkuUnit) : List PkuUnit :=
  us.mapIdx fun j v => if j = k then v else v.noteWrites ws

/-- TAKING A FAULT: `raise <Fault>` (R12, R226). It sets the fault's STATUS bit and changes no other register; no vector, no
saved state, no mode. The return (R229) is `Status.w1c`: nothing is restored. -/
def PkuUnit.raise (r : PkuUnit) (f : FaultCode) : PkuUnit := { r with status := r.status.raise f }

/-- The first two lines of `issue(w)` (R111): CMD <- w, DONE <- 0. -/
def PkuUnit.store (r : PkuUnit) (w : Word) : PkuUnit := { r with cmd := w, status := r.status.clearDone }

/-- `issue(w)` for an illegal word (R75, R111, R222): the word is stored and EILL raised; no other check is made. -/
def issueIllegal (w : Word) (s : State) (r : PkuUnit) : State := s.setUnit ((r.store w).raise .eill)

/-- `STATUS.BUSY <- 1` (R111): the command is accepted, and has met no race yet. -/
def PkuUnit.accept (r : PkuUnit) : PkuUnit := { r with status := r.status.accept, raced := [] }

/-- The command is accepted (R111). Both sides of every overlap with another unit's command in flight that one of the two
writes are noted as raced (R63, log 8). -/
def acceptCommand (s : State) (r : PkuUnit) : State :=
  let us := s.units.set s.cur (r.accept.noteWrites (otherWrites s.cur s.units))
  { s with units := noteOthers s.cur r.accept.writeSpan us }

/-- `issue(w)` for the word of the command `i` of width `W` (R111): ECAP, then EWRAP, else accepted (R227). -/
def issueCommand (i : Instr) (W : Nat) (s : State) (r : PkuUnit) : State :=
  let r' := r.store (encode i)
  if capacityOk r.off r.len W then
    if windowOk s.addrw r.base r.len then acceptCommand s r' else s.setUnit (r'.raise .ewrap)
  else s.setUnit (r'.raise .ecap)

/-- The raced addresses of a span. -/
def racedSpan (raced span : List Nat) : List Nat := span.filter (fun a => raced.contains a)

/-- Give every listed address a free byte, from draw `n` on (R63 a). -/
def scramble (m : Memory) : List Nat → Nat → Memory
  | [], _ => m
  | a :: as, n => scramble (Memory.write m a (Config.freeByte n)) as (n + 1)

/-- The end of the completion step (R112): BUSY <- 0, DONE <- 1; the busy interval's races are over. -/
def PkuUnit.finish (r : PkuUnit) : PkuUnit := { r with status := r.status.complete, raced := [] }

/-- The completion step of an UNPACK of width `W` (R112): DATA <- ext(Extract(OFF, W)); a free value if a byte of the
span was written by another agent in the interval (R63 c). -/
def completeUnpack (W : Nat) (ext : Nat → Nat → Data) (s : State) (r : PkuUnit) :
    Host.Outcome State Fault Refusal :=
  if spanInMem s.addrw r.base.toNat r.off.toNat W then
    if racedSpan r.raced (spanAddrs r.base.toNat r.off.toNat W) = [] then
      .next (s.setUnit ({ r with data := ext W (extract s.mem r.base.toNat r.off.toNat W) }).finish)
    else
      .next { s.setUnit ({ r with data := Config.freeData s.draws }).finish with draws := s.draws + 1 }
  else .fault .addressOutsideMem

/-- The completion step of a PACK of width `W` (R112): Insert(OFF, W, DATA[W-1:0]); a span byte that another agent also
wrote in the interval holds a free byte afterwards (R63 a). -/
def completePack (W : Nat) (s : State) (r : PkuUnit) : Host.Outcome State Fault Refusal :=
  if spanInMem s.addrw r.base.toNat r.off.toNat W then
    let hit := racedSpan r.raced (spanAddrs r.base.toNat r.off.toNat W)
    let m := insertField s.mem r.base.toNat r.off.toNat W (packValue r.data W)
    .next { s.setUnit r.finish with mem := scramble m hit s.draws, draws := s.draws + hit.length }
  else .fault .addressOutsideMem

/-- An UNPACK command: its issue when the unit is not busy, its completion step when it is (log 6). -/
def unpackCommand (i : Instr) (width : PtrWidth → Nat) (ext : Nat → Nat → Data) (s : State) :
    Host.Outcome State Fault Refusal :=
  match s.unit? with
  | none => .fault .noSuchUnit
  | some r =>
    if r.status.busy then completeUnpack (width r.ptrw) ext s r else .next (issueCommand i (width r.ptrw) s r)

/-- A PACK command: its issue when the unit is not busy, its completion step when it is (log 6). -/
def packCommand (i : Instr) (width : PtrWidth → Nat) (s : State) : Host.Outcome State Fault Refusal :=
  match s.unit? with
  | none => .fault .noSuchUnit
  | some r =>
    if r.status.busy then completePack (width r.ptrw) s r else .next (issueCommand i (width r.ptrw) s r)

/-- A PACK abandoned by reset (R251): each span byte keeps its old value or takes the new one, drawn per byte from draw
`n` on; a byte that another agent also wrote is any byte (R63 a). -/
def tear (new : Memory) (raced : List Nat) (m : Memory) : List Nat → Nat → Memory
  | [], _ => m
  | a :: as, n =>
    let m' :=
      if raced.contains a then Memory.write m a (Config.freeByte n)
      else if Config.freeTorn n then Memory.write m a (Memory.read new a) else m
    tear new raced m' as (n + 1)

/-- Reset of unit `k` (R250 to R252): every register to its reset value, a command in flight abandoned. -/
def resetUnit (k : Nat) (s : State) : Host.Outcome State Fault Refusal :=
  match s.units[k]? with
  | none => .fault .noSuchUnit
  | some r =>
    let s' := s.putUnit k (PkuUnit.ofReset r.ptrw r.regbase)
    if r.status.busy then
      match decode? r.cmd with
      | none => .fault .inFlightIllegal
      | some i =>
        let W := typeWidth r.ptrw i.typeCode
        if i.op = .unpack then .next s'
        else if spanInMem s.addrw r.base.toNat r.off.toNat W then
          let new := insertField s.mem r.base.toNat r.off.toNat W (packValue r.data W)
          let addrs := spanAddrs r.base.toNat r.off.toNat W
          .next { s' with mem := tear new r.raced s.mem addrs s.draws, draws := s.draws + addrs.length }
        else .fault .addressOutsideMem
    else .next s'

end Sys2Proof.Machine
end

