-- ==== Sys2Proof/Machine/Boolean.lean ====
section
/-! DEFINITION. The boolean commands (41_boolean.md, R120 and R121): width 1. -/

namespace Sys2Proof.Machine

open Sys2Proof

/-- UNPACK.BOOL (R120): DATA <- zext_128(Extract(OFF, 1)). -/
def execUnpackBool (s : State) : Host.Outcome State Fault Refusal := unpackCommand .unpackBool (fun _ => 1) zext128 s

/-- PACK.BOOL (R121): Insert(OFF, 1, DATA[0]). -/
def execPackBool (s : State) : Host.Outcome State Fault Refusal := packCommand .packBool (fun _ => 1) s

end Sys2Proof.Machine
end

