-- ==== Sys2Proof/Machine/Signed.lean ====
section
/-! DEFINITION. The signed integer commands (43_signed.md, R150 to R163). -/

namespace Sys2Proof.Machine

open Sys2Proof

/-- UNPACK.I8 (R152, R150): DATA <- sext_128(Extract(OFF, 8)). -/
def execUnpackI8 (s : State) : Host.Outcome State Fault Refusal := unpackCommand .unpackI8 (fun _ => 8) sext128 s

/-- PACK.I8 (R153, R151): Insert(OFF, 8, DATA[8-1:0]). -/
def execPackI8 (s : State) : Host.Outcome State Fault Refusal := packCommand .packI8 (fun _ => 8) s

/-- UNPACK.I16 (R154, R150): DATA <- sext_128(Extract(OFF, 16)). -/
def execUnpackI16 (s : State) : Host.Outcome State Fault Refusal := unpackCommand .unpackI16 (fun _ => 16) sext128 s

/-- PACK.I16 (R155, R151): Insert(OFF, 16, DATA[16-1:0]). -/
def execPackI16 (s : State) : Host.Outcome State Fault Refusal := packCommand .packI16 (fun _ => 16) s

/-- UNPACK.I32 (R156, R150): DATA <- sext_128(Extract(OFF, 32)). -/
def execUnpackI32 (s : State) : Host.Outcome State Fault Refusal := unpackCommand .unpackI32 (fun _ => 32) sext128 s

/-- PACK.I32 (R157, R151): Insert(OFF, 32, DATA[32-1:0]). -/
def execPackI32 (s : State) : Host.Outcome State Fault Refusal := packCommand .packI32 (fun _ => 32) s

/-- UNPACK.I64 (R158, R150): DATA <- sext_128(Extract(OFF, 64)). -/
def execUnpackI64 (s : State) : Host.Outcome State Fault Refusal := unpackCommand .unpackI64 (fun _ => 64) sext128 s

/-- PACK.I64 (R159, R151): Insert(OFF, 64, DATA[64-1:0]). -/
def execPackI64 (s : State) : Host.Outcome State Fault Refusal := packCommand .packI64 (fun _ => 64) s

/-- UNPACK.I128 (R160, R150): DATA <- sext_128(Extract(OFF, 128)). -/
def execUnpackI128 (s : State) : Host.Outcome State Fault Refusal := unpackCommand .unpackI128 (fun _ => 128) sext128 s

/-- PACK.I128 (R161, R151): Insert(OFF, 128, DATA[128-1:0]). -/
def execPackI128 (s : State) : Host.Outcome State Fault Refusal := packCommand .packI128 (fun _ => 128) s

/-- UNPACK.IPTR (R162, R150): DATA <- sext_128(Extract(OFF, PTRW)). -/
def execUnpackIptr (s : State) : Host.Outcome State Fault Refusal := unpackCommand .unpackIptr PtrWidth.bits sext128 s

/-- PACK.IPTR (R163, R151): Insert(OFF, PTRW, DATA[PTRW-1:0]). -/
def execPackIptr (s : State) : Host.Outcome State Fault Refusal := packCommand .packIptr PtrWidth.bits s

end Sys2Proof.Machine
end

