-- ==== Sys2Proof/Machine/Unsigned.lean ====
section
/-! DEFINITION. The unsigned integer commands (42_unsigned.md, R130 to R143). -/

namespace Sys2Proof.Machine

open Sys2Proof

/-- UNPACK.U8 (R132, R130): DATA <- zext_128(Extract(OFF, 8)). -/
def execUnpackU8 (s : State) : Host.Outcome State Fault Refusal := unpackCommand .unpackU8 (fun _ => 8) zext128 s

/-- PACK.U8 (R133, R131): Insert(OFF, 8, DATA[8-1:0]). -/
def execPackU8 (s : State) : Host.Outcome State Fault Refusal := packCommand .packU8 (fun _ => 8) s

/-- UNPACK.U16 (R134, R130): DATA <- zext_128(Extract(OFF, 16)). -/
def execUnpackU16 (s : State) : Host.Outcome State Fault Refusal := unpackCommand .unpackU16 (fun _ => 16) zext128 s

/-- PACK.U16 (R135, R131): Insert(OFF, 16, DATA[16-1:0]). -/
def execPackU16 (s : State) : Host.Outcome State Fault Refusal := packCommand .packU16 (fun _ => 16) s

/-- UNPACK.U32 (R136, R130): DATA <- zext_128(Extract(OFF, 32)). -/
def execUnpackU32 (s : State) : Host.Outcome State Fault Refusal := unpackCommand .unpackU32 (fun _ => 32) zext128 s

/-- PACK.U32 (R137, R131): Insert(OFF, 32, DATA[32-1:0]). -/
def execPackU32 (s : State) : Host.Outcome State Fault Refusal := packCommand .packU32 (fun _ => 32) s

/-- UNPACK.U64 (R138, R130): DATA <- zext_128(Extract(OFF, 64)). -/
def execUnpackU64 (s : State) : Host.Outcome State Fault Refusal := unpackCommand .unpackU64 (fun _ => 64) zext128 s

/-- PACK.U64 (R139, R131): Insert(OFF, 64, DATA[64-1:0]). -/
def execPackU64 (s : State) : Host.Outcome State Fault Refusal := packCommand .packU64 (fun _ => 64) s

/-- UNPACK.U128 (R140, R130): DATA <- zext_128(Extract(OFF, 128)). -/
def execUnpackU128 (s : State) : Host.Outcome State Fault Refusal := unpackCommand .unpackU128 (fun _ => 128) zext128 s

/-- PACK.U128 (R141, R131): Insert(OFF, 128, DATA[128-1:0]). -/
def execPackU128 (s : State) : Host.Outcome State Fault Refusal := packCommand .packU128 (fun _ => 128) s

/-- UNPACK.UPTR (R142, R130): DATA <- zext_128(Extract(OFF, PTRW)). -/
def execUnpackUptr (s : State) : Host.Outcome State Fault Refusal := unpackCommand .unpackUptr PtrWidth.bits zext128 s

/-- PACK.UPTR (R143, R131): Insert(OFF, PTRW, DATA[PTRW-1:0]). -/
def execPackUptr (s : State) : Host.Outcome State Fault Refusal := packCommand .packUptr PtrWidth.bits s

end Sys2Proof.Machine
end

