-- ==== Sys2Proof/Machine/Dispatch.lean ====
section
/-! DEFINITION. Dispatch: one arm per command, each one call of its meaning. -/

namespace Sys2Proof.Machine

def exec (i : Instr) (s : State) : Host.Outcome State Fault Refusal :=
  match i with
  | .unpackBool => Sys2Proof.Machine.execUnpackBool s
  | .packBool => Sys2Proof.Machine.execPackBool s
  | .unpackU8 => Sys2Proof.Machine.execUnpackU8 s
  | .packU8 => Sys2Proof.Machine.execPackU8 s
  | .unpackU16 => Sys2Proof.Machine.execUnpackU16 s
  | .packU16 => Sys2Proof.Machine.execPackU16 s
  | .unpackU32 => Sys2Proof.Machine.execUnpackU32 s
  | .packU32 => Sys2Proof.Machine.execPackU32 s
  | .unpackU64 => Sys2Proof.Machine.execUnpackU64 s
  | .packU64 => Sys2Proof.Machine.execPackU64 s
  | .unpackU128 => Sys2Proof.Machine.execUnpackU128 s
  | .packU128 => Sys2Proof.Machine.execPackU128 s
  | .unpackUptr => Sys2Proof.Machine.execUnpackUptr s
  | .packUptr => Sys2Proof.Machine.execPackUptr s
  | .unpackI8 => Sys2Proof.Machine.execUnpackI8 s
  | .packI8 => Sys2Proof.Machine.execPackI8 s
  | .unpackI16 => Sys2Proof.Machine.execUnpackI16 s
  | .packI16 => Sys2Proof.Machine.execPackI16 s
  | .unpackI32 => Sys2Proof.Machine.execUnpackI32 s
  | .packI32 => Sys2Proof.Machine.execPackI32 s
  | .unpackI64 => Sys2Proof.Machine.execUnpackI64 s
  | .packI64 => Sys2Proof.Machine.execPackI64 s
  | .unpackI128 => Sys2Proof.Machine.execUnpackI128 s
  | .packI128 => Sys2Proof.Machine.execPackI128 s
  | .unpackIptr => Sys2Proof.Machine.execUnpackIptr s
  | .packIptr => Sys2Proof.Machine.execPackIptr s

end Sys2Proof.Machine
end

