-- ==== Sys2Proof/Machine/Bus.lean ====
section
/-! DEFINITION. Host accesses: the register block (R20 to R23, R28 to R32, R35, R36, R38) and `Mem` (R51, R63). -/

namespace Sys2Proof.Machine

open Sys2Proof

/-- The byte offset of a register in the block (R20). -/
def regOffset : Reg → Nat
  | .cfg => 0x00
  | .cmd => 0x04
  | .status => 0x08
  | .rsv0C => 0x0C
  | .offLo => 0x10
  | .offHi => 0x14
  | .baseLo => 0x18
  | .baseHi => 0x1C
  | .lenLo => 0x20
  | .lenHi => 0x24
  | .rsv28 => 0x28
  | .rsv2C => 0x2C
  | .data0 => 0x30
  | .data1 => 0x34
  | .data2 => 0x38
  | .data3 => 0x3C

/-- The registers in the order of their offsets (R20). -/
def allRegs : List Reg :=
  [.cfg, .cmd, .status, .rsv0C, .offLo, .offHi, .baseLo, .baseHi, .lenLo, .lenHi, .rsv28, .rsv2C, .data0, .data1,
    .data2, .data3]

/-- The register at a byte offset of the block; none at an offset that is no multiple of 4 (R20, R38). -/
def regAt (offset : Nat) : Option Reg := if offset % 4 = 0 then allRegs[offset / 4]? else none

/-- The unit whose register block holds a host address (R20, R233). DESIGN CHOICE (log 22): R38 does not say whether an access
that begins below a block and runs into it is an access to the block; an access belongs to the block, if any, that holds
its first address. -/
def unitAt (us : List PkuUnit) (addr : Nat) : Option Nat :=
  us.findIdx? fun r => decide (r.regbase ≤ addr) && decide (addr < r.regbase + 64)

/-- CFG (R21): PTRWC in bits 2:0, ADDRW in bits 14:8. -/
def cfgWord (addrw : Nat) (p : PtrWidth) : Word := 0#17 ++ BitVec.ofNat 7 addrw ++ 0#5 ++ p.code

/-- Whether a register is one of DATA0..DATA3 (R36). -/
def isDataReg : Reg → Bool
  | .data0 | .data1 | .data2 | .data3 => true
  | .cfg | .cmd | .status | .rsv0C | .offLo | .offHi | .baseLo | .baseHi | .lenLo | .lenHi | .rsv28 | .rsv2C => false

/-- The word a register holds (R20 to R23, R28 to R32). -/
def regWord (addrw : Nat) (r : PkuUnit) : Reg → Word
  | .cfg => cfgWord addrw r.ptrw
  | .cmd => r.cmd
  | .status => r.status.toWord
  | .offLo => r.off.extractLsb' 0 32
  | .offHi => r.off.extractLsb' 32 32
  | .baseLo => r.base.extractLsb' 0 32
  | .baseHi => r.base.extractLsb' 32 32
  | .lenLo => r.len.extractLsb' 0 32
  | .lenHi => r.len.extractLsb' 32 32
  | .data0 => r.data.extractLsb' 0 32
  | .data1 => r.data.extractLsb' 32 32
  | .data2 => r.data.extractLsb' 64 32
  | .data3 => r.data.extractLsb' 96 32
  | .rsv0C | .rsv28 | .rsv2C => 0#32

/-- `R <- w` for the operand registers (R20, R35); the registers that this does not write are left as they are. -/
def storeReg (r : PkuUnit) (w : Word) : Reg → PkuUnit
  | .offLo => { r with off := r.off.extractLsb' 32 32 ++ w }
  | .offHi => { r with off := w ++ r.off.extractLsb' 0 32 }
  | .baseLo => { r with base := r.base.extractLsb' 32 32 ++ w }
  | .baseHi => { r with base := w ++ r.base.extractLsb' 0 32 }
  | .lenLo => { r with len := r.len.extractLsb' 32 32 ++ w }
  | .lenHi => { r with len := w ++ r.len.extractLsb' 0 32 }
  | .data0 => { r with data := r.data.extractLsb' 32 96 ++ w }
  | .data1 => { r with data := r.data.extractLsb' 64 64 ++ w ++ r.data.extractLsb' 0 32 }
  | .data2 => { r with data := r.data.extractLsb' 96 32 ++ w ++ r.data.extractLsb' 0 64 }
  | .data3 => { r with data := w ++ r.data.extractLsb' 0 96 }
  | .cfg | .cmd | .status | .rsv0C | .rsv28 | .rsv2C => r

/-- `issue(w)` (R111), for a CMD write that is not ignored: an illegal word raises EILL, a legal one is its command's
issue. -/
def writeCmd (u : Nat) (w : Word) (s : State) (r : PkuUnit) : Host.Outcome State Fault Refusal :=
  match decode w with
  | .ok i => exec i { s with cur := u }
  | .error _ => .next (issueIllegal w { s with cur := u } r)

/-- A host write of `w` to a register of unit `u` (R35, R228). -/
def writeReg (u : Nat) (reg : Reg) (w : Word) (s : State) : Host.Outcome State Fault Refusal :=
  match s.units[u]? with
  | none => .fault .noSuchUnit
  | some r =>
    match reg with
    | .status => .next (s.putUnit u { r with status := r.status.w1c w })
    | .cfg | .rsv0C | .rsv28 | .rsv2C => .next s
    | .cmd =>
      if r.status.busy then .next (s.putUnit u (r.raise .ebusy))
      else if r.status.halted then .next s
      else writeCmd u w s r
    | .offLo | .offHi | .baseLo | .baseHi | .lenLo | .lenHi | .data0 | .data1 | .data2 | .data3 =>
      if r.status.busy then .next (s.putUnit u (r.raise .ebusy)) else .next (s.putUnit u (storeReg r w reg))

/-- A host read of a register of unit `u`: DATA read while busy is a free value (R36). -/
def readReg (u : Nat) (reg : Reg) (s : State) : Host.Outcome State Fault Refusal :=
  match s.units[u]? with
  | none => .fault .noSuchUnit
  | some r =>
    if r.status.busy && isDataReg reg then .next { s with rdReg := Config.freeWord s.draws, draws := s.draws + 1 }
    else .next { s with rdReg := regWord s.addrw r reg }

/-- A host write of one byte to `Mem` (R51); it races the commands in flight whose span holds the byte (R63). -/
def writeMem (a : Nat) (b : Byte) (s : State) : Host.Outcome State Fault Refusal :=
  if a < memBytes s.addrw then
    .next { s with mem := Memory.write s.mem a b, units := s.units.map (PkuUnit.noteWrites [a]) }
  else .fault .addressOutsideMem

/-- A host read of one byte of `Mem` (R51); a byte of a busy PACK's span reads as any byte (R63 b). -/
def readMem (a : Nat) (s : State) : Host.Outcome State Fault Refusal :=
  if a < memBytes s.addrw then
    if s.units.any (fun r => r.writeSpan.contains a) then
      .next { s with rdMem := Config.freeByte s.draws, draws := s.draws + 1 }
    else .next { s with rdMem := Memory.read s.mem a }
  else .fault .addressOutsideMem

/-- One host access. An access to a register block that is not an aligned 32-bit one is not decoded (R38): a write has no
effect, a read returns 0. -/
def busAccess (op : BusOp) (s : State) : Host.Outcome State Fault Refusal :=
  match op with
  | .memWrite a b => writeMem a b s
  | .memRead a => readMem a s
  | .regWrite a size w =>
    match unitAt s.units a with
    | none => .refused .outsideRegisterBlocks
    | some u =>
      match s.units[u]? with
      | none => .fault .noSuchUnit
      | some r =>
        if size = .word then
          match regAt (a - r.regbase) with
          | some reg => writeReg u reg w s
          | none => .next s
        else .next s
  | .regRead a size =>
    match unitAt s.units a with
    | none => .refused .outsideRegisterBlocks
    | some u =>
      match s.units[u]? with
      | none => .fault .noSuchUnit
      | some r =>
        if size = .word then
          match regAt (a - r.regbase) with
          | some reg => readReg u reg s
          | none => .next { s with rdReg := 0#32 }
        else .next { s with rdReg := 0#32 }

end Sys2Proof.Machine
end

