-- ==== Sys2Proof/Machine/HostProgram.lean ====
section
/-! DEFINITION. The host notation (R77) and its pseudo-instructions (R78): expressions on unbounded integers, one primitive
statement as one step of the host, and the expansion of a program's lines. -/

namespace Sys2Proof.Machine

open Sys2Proof

/-- The value of a host name, if it is bound. -/
def lookupVar : List (Var × Int) → Var → Option Int
  | [], _ => none
  | (y, v) :: vs, x => if x = y then some v else lookupVar vs x

/-- Bind a host name, replacing its old value. -/
def bindVar (vs : List (Var × Int)) (x : Var) (v : Int) : List (Var × Int) := (x, v) :: vs.filter (fun p => p.1 != x)

/-- `a & b` on unbounded integers, a negative number in two's complement (R8, R77, log 14). -/
def hostAnd : Int → Int → Int
  | .ofNat a, .ofNat b => Int.ofNat (a &&& b)
  | .ofNat a, .negSucc b => Int.ofNat (a - (a &&& b))
  | .negSucc a, .ofNat b => Int.ofNat (b - (a &&& b))
  | .negSucc a, .negSucc b => Int.negSucc (a ||| b)

/-- `v[hi:lo]` (R8): (v div 2^lo) mod 2^(hi-lo+1). Of a negative number it gives the bits of its two's complement
pattern (R77). -/
def hostSlice (hi lo : Nat) (v : Int) : Int := (v / 2 ^ lo) % 2 ^ (hi + 1 - lo)

/-- The value of a host expression (R77); none if it uses a name never bound. -/
def evalExpr (vs : List (Var × Int)) : Expr → Option Int
  | .lit v => some v
  | .var x => lookupVar vs x
  | .elem n i =>
    match evalExpr vs i with
    | none => none
    | some k => if k < 0 then none else lookupVar vs (.elem n k.toNat)
  | .add a b =>
    match evalExpr vs a, evalExpr vs b with
    | some x, some y => some (x + y)
    | _, _ => none
  | .sub a b =>
    match evalExpr vs a, evalExpr vs b with
    | some x, some y => some (x - y)
    | _, _ => none
  | .mul a b =>
    match evalExpr vs a, evalExpr vs b with
    | some x, some y => some (x * y)
    | _, _ => none
  | .band a b =>
    match evalExpr vs a, evalExpr vs b with
    | some x, some y => some (hostAnd x y)
    | _, _ => none
  | .slice hi lo e =>
    match evalExpr vs e with
    | some x => some (hostSlice hi lo x)
    | none => none

/-- A host comparison (R77). -/
def evalCmp (c : Cmp) (x y : Int) : Bool :=
  match c with
  | .eq => decide (x = y)
  | .ne => decide (x ≠ y)
  | .lt => decide (x < y)
  | .le => decide (x ≤ y)
  | .gt => decide (y < x)
  | .ge => decide (y ≤ x)

/-- Continue with the next statement. -/
def advanceHost (s : State) : State := { s with host := { s.host with pos := s.host.pos + 1 } }

/-- Bind a name and continue with the next statement. -/
def bindAdvance (x : Var) (v : Int) (s : State) : State :=
  { s with host := { s.host with pos := s.host.pos + 1, vars := bindVar s.host.vars x v } }

/-- Go on from the next state of an outcome. -/
def andThen (o : Host.Outcome State Fault Refusal) (f : State → State) : Host.Outcome State Fault Refusal :=
  match o with
  | .next s => .next (f s)
  | .fault e => .fault e
  | .refused e => .refused e

/-- The host address of a register of unit `u`: REGBASE + offset (R77). -/
def regAddr? (s : State) (u : Nat) (reg : Reg) : Option Nat :=
  match s.units[u]? with
  | none => none
  | some r => some (r.regbase + regOffset reg)

/-- One primitive statement of the host program (R77); a statement past the end is no statement. DESIGN CHOICE (log 14): R77
says only `imm32`, and a `wr` of a value that does not fit 32 bits writes the value mod 2^32; R77 is silent on
a label that a program defines twice, and a jump continues at the first definition. -/
def runStmt (st : HostStmt) (s : State) : Host.Outcome State Fault Refusal :=
  match st with
  | .wr u reg e =>
    match evalExpr s.host.vars e with
    | none => .fault .hostNameUnbound
    | some v =>
      match regAddr? s u reg with
      | none => .fault .noSuchUnit
      | some a => andThen (busAccess (.regWrite a .word (BitVec.ofInt 32 v)) s) advanceHost
  | .rd u reg x =>
    match regAddr? s u reg with
    | none => .fault .noSuchUnit
    | some a => andThen (busAccess (.regRead a .word) s) (fun s' => bindAdvance x s'.rdReg.toNat s')
  | .wait u =>
    match regAddr? s u .status with
    | none => .fault .noSuchUnit
    | some a =>
      andThen (busAccess (.regRead a .word) s) (fun s' => if s'.rdReg.getLsbD 0 then s' else advanceHost s')
  | .memB e b =>
    match evalExpr s.host.vars e with
    | none => .fault .hostNameUnbound
    | some v => if v < 0 then .fault .addressOutsideMem else andThen (busAccess (.memWrite v.toNat b) s) advanceHost
  | .letE x e =>
    match evalExpr s.host.vars e with
    | none => .fault .hostNameUnbound
    | some v => .next (bindAdvance x v s)
  | .label _ => .next (advanceHost s)
  | .ifGoto a c b l =>
    match evalExpr s.host.vars a, evalExpr s.host.vars b with
    | some x, some y =>
      if evalCmp c x y then
        match s.host.prog.findIdx? (HostStmt.defines l) with
        | none => .fault .hostLabelMissing
        | some k => .next { s with host := { s.host with pos := k } }
      else .next (advanceHost s)
    | _, _ => .fault .hostNameUnbound

/-- The host's turn: its next statement, or nothing when its program has ended. -/
def hostTurn (s : State) : Host.Outcome State Fault Refusal :=
  match s.host.prog[s.host.pos]? with
  | none => .next s
  | some st => runStmt st s

/-- The command of an operation and a type: the MNEMONIC `UNPACK.<t>` or `PACK.<t>` (R77). -/
def stmtCmd (u : Nat) (i : Instr) : HostStmt := .wr u .cmd (.lit (encode i).toNat)

/-- `setoff o` (R78). -/
def stmtsSetoff (u : Nat) (o : Expr) : List HostStmt := [.wr u .offLo (.slice 31 0 o), .wr u .offHi (.slice 63 32 o)]

/-- `setdata v` (R78). -/
def stmtsSetdata (u : Nat) (v : Expr) : List HostStmt :=
  [.wr u .data0 (.slice 31 0 v), .wr u .data1 (.slice 63 32 v), .wr u .data2 (.slice 95 64 v),
    .wr u .data3 (.slice 127 96 v)]

/-- `d3 ++ d2 ++ d1 ++ d0` (R8, R78). -/
def exprData : Expr :=
  .add (.mul (.var (.d 3)) (.lit (2 ^ 96)))
    (.add (.mul (.var (.d 2)) (.lit (2 ^ 64))) (.add (.mul (.var (.d 1)) (.lit (2 ^ 32))) (.var (.d 0))))

/-- `getdata -> name` (R78). -/
def stmtsGetdata (u : Nat) (x : Var) : List HostStmt :=
  [.rd u .data0 (.d 0), .rd u .data1 (.d 1), .rd u .data2 (.d 2), .rd u .data3 (.d 3), .letE x exprData]

/-- The bytes of a `mem` line, one access each (R77, log 14). -/
def stmtsMem (a : Expr) : Nat → List Byte → List HostStmt
  | _, [] => []
  | k, b :: bs => .memB (.add a (.lit k)) b :: stmtsMem a (k + 1) bs

/-- The expansion of a line into primitive statements (R77, R78). -/
def expandLine : HostLine → List HostStmt
  | .prim st => [st]
  | .cmd u i => [stmtCmd u i]
  | .mem a bs => stmtsMem a 0 bs
  | .setbuf u base len =>
    [.wr u .baseLo (.slice 31 0 base), .wr u .baseHi (.slice 63 32 base), .wr u .lenLo (.slice 31 0 len),
      .wr u .lenHi (.slice 63 32 len)]
  | .setoff u o => stmtsSetoff u o
  | .setdata u v => stmtsSetdata u v
  | .getdata u x => stmtsGetdata u x
  | .clr u => [.wr u .status (.lit 0x3E)]
  | .unpack u tc o x =>
    stmtsSetoff u o ++ [stmtCmd u (Instr.ofParts .unpack tc), .wait u] ++ stmtsGetdata u x
  | .pack u tc o v => stmtsSetoff u o ++ stmtsSetdata u v ++ [stmtCmd u (Instr.ofParts .pack tc), .wait u]

/-- The expansion of a program. -/
def expandProgram (ls : List HostLine) : List HostStmt := ls.flatMap expandLine

/-- Give the host a program, from its first statement, with the names `vars` bound (host arrays of the spec's programs). -/
def loadProgram (ls : List HostLine) (vars : List (Var × Int)) (s : State) : State :=
  { s with host := { prog := expandProgram ls, pos := 0, vars := vars } }

end Sys2Proof.Machine
end

