-- ==== Sys2Proof/Machine/Composite.lean ====
section
/-! DEFINITION. Composite layouts as host command sequences (45_composite.md, R200 to R208). -/

namespace Sys2Proof.Machine

open Sys2Proof

/-- WIDTH of a type (R100, R201, R204); `p` is PTRW. -/
def tyWidth (p : PtrWidth) : Ty → Nat
  | .prim tc => typeWidth p tc
  | .array e n => n * tyWidth p e
  | .unit => 0
  | .cons h t => tyWidth p h + tyWidth p t

/-- The primitive leaves of a type at offset `o`, in declaration order (R202, R203, R205). -/
def tyLeaves (p : PtrWidth) : Ty → Nat → List (Nat × TypeCode)
  | .prim tc, o => [(o, tc)]
  | .array e n, o => (List.range n).flatMap fun i => tyLeaves p e (o + i * tyWidth p e)
  | .unit, _ => []
  | .cons h t, o => tyLeaves p h o ++ tyLeaves p t (o + tyWidth p h)

/-- The host's check before the first command of a composite (R206): continue at `fail` if o + WIDTH > 8 * LEN. -/
def capacityLine (width : Nat) (o len : Expr) (fail : Nat) : HostLine :=
  .prim (.ifGoto (.add o (.lit width)) .gt (.mul (.lit 8) len) fail)

/-- The command sequence that packs a composite at offset `o` with one value for each leaf (R200, R205, R206). A type
without leaves issues no command (R204). None if the values are not one for each leaf. DESIGN CHOICE (log 18): the spec's
offset is a number; here `o`, like `len` and the values, is a host expression, evaluated again where each line uses it. -/
def packComposite (p : PtrWidth) (u : Nat) (ty : Ty) (o len : Expr) (fail : Nat) (vs : List Expr) :
    Option (List HostLine) :=
  let ls := tyLeaves p ty 0
  if ls.length = vs.length then
    if ls = [] then some []
    else some (capacityLine (tyWidth p ty) o len fail ::
      List.zipWith (fun l v => HostLine.pack u l.2 (.add o (.lit l.1)) v) ls vs)
  else none

/-- The command sequence that unpacks a composite at offset `o` into one name for each leaf (R200, R205, R206). DESIGN CHOICE
(log 18): the spec's offset is a number; here `o` is a host expression evaluated again at each leaf, so `o` must not use
a name that an earlier leaf binds (its result name, or d0..d3 of `getdata`), or the later leaves move. -/
def unpackComposite (p : PtrWidth) (u : Nat) (ty : Ty) (o len : Expr) (fail : Nat) (xs : List Var) :
    Option (List HostLine) :=
  let ls := tyLeaves p ty 0
  if ls.length = xs.length then
    if ls = [] then some []
    else some (capacityLine (tyWidth p ty) o len fail ::
      List.zipWith (fun l x => HostLine.unpack u l.2 (.add o (.lit l.1)) x) ls xs)
  else none

/-- A primitive field with a value: where a PACK of a leaf puts it (R205). -/
structure LeafValue where
  off   : Nat
  width : Nat
  value : Nat
  deriving DecidableEq, Repr

/-- The memory after the PACKs of a list of leaves, one after another (R205, R207). -/
def insertLeaves (base : Nat) : Memory → List LeafValue → Memory
  | m, [] => m
  | m, l :: ls => insertLeaves base (insertField m base l.off l.width l.value) ls

end Sys2Proof.Machine
end

