-- ==== Sys2Proof/Machine/Turns.lean ====
section
/-! DEFINITION. The turns of the machine: who moves in a step (log 5), and the placing of a command word for the next
step (log 7). -/

namespace Sys2Proof.Machine

open Sys2Proof

/-- The completion step of unit `u` (R112): enabled only when STATUS.BUSY = 1; an idle unit takes no step (R232). -/
def completeTurn (u : Nat) (s : State) : Host.Outcome State Fault Refusal :=
  match s.units[u]? with
  | none => .fault .noSuchUnit
  | some r =>
    if r.status.busy then
      match decode r.cmd with
      | .ok i => exec i { s with cur := u }
      | .error _ => .fault .inFlightIllegal
    else .next s

/-- One turn. -/
def runTurn (t : Turn) (s : State) : Host.Outcome State Fault Refusal :=
  match t with
  | .host => hostTurn s
  | .access op => busAccess op s
  | .complete u => completeTurn u s
  | .reset u => resetUnit u s

/-- The first busy unit. -/
def firstBusy (us : List PkuUnit) : Option Nat := us.findIdx? (fun r => r.status.busy)

/-- The turn taken when nothing is scheduled (R261, log 5): a busy unit completes, else the host goes on. -/
def defaultTurn (s : State) : Turn :=
  match firstBusy s.units with
  | some u => .complete u
  | none => .host

/-- The unit with the command word `w` accepted and not yet performed (R24, R34): CMD = w and BUSY = 1. -/
def acceptedUnit (w : Word) (r : PkuUnit) : PkuUnit := { r with cmd := w, status := r.status.accept }

/-- Place `w` as the accepted command of the unit `cur` (log 7). -/
def placeWord (w : Word) (s : State) : State :=
  match s.unit? with
  | none => s
  | some r => s.setUnit (acceptedUnit w r)

end Sys2Proof.Machine
end

