-- ==== Sys2Proof/Machine/Step.lean ====
section
/-! DEFINITION. One step of the machine, and the placing of a command word where the next step takes its command. -/

namespace Sys2Proof.Machine

open Sys2Proof

/-- One step: the first scheduled turn, or the default turn when nothing is scheduled (R112, R260, R261, log 5). -/
def step (s : State) : Host.Outcome State Fault Refusal :=
  match s.schedule with
  | t :: rest => runTurn t { s with schedule := rest }
  | [] => runTurn (defaultTurn s) s

/-- The command word placed as the accepted command of the unit `cur`, whose completion is the next turn (log 7): the unit
has no fetch (R66), and takes the command it performs from CMD (R112). -/
def State.withFetchWord (s : State) (nbits w : Nat) : State :=
  let s' := placeWord (BitVec.ofNat 32 (w % 2 ^ nbits)) s
  { s' with schedule := .complete s.cur :: s.schedule }

end Sys2Proof.Machine
end

