-- ==== Sys2Proof/Safety.lean ====
section
/-! DEFINITION. The terms claims are stated in: the invariant of the machine, the situations in which a command is issued or
performed, and the families of commands with their widths. -/

namespace Sys2Proof.Machine

open Sys2Proof

/-- What holds of a unit in every state a run reaches: a busy unit's command was accepted (R25, R113) and, until it
completes, DONE and the issue faults' bits are 0 (R26, R228); an issue fault leaves DONE = 0 and comes alone (R226,
R227); only bytes of the span of the command in flight are noted as raced (R63). -/
structure UnitInv (addrw : Nat) (r : PkuUnit) : Prop where
  accepted : r.status.busy = true → ∃ i, decode? r.cmd = some i ∧
    r.off.toNat + typeWidth r.ptrw i.typeCode ≤ 8 * r.len.toNat ∧ r.base.toNat + r.len.toNat ≤ 2 ^ addrw
  busyFlags : r.status.busy = true →
    r.status.done = false ∧ r.status.ecap = false ∧ r.status.eill = false ∧ r.status.ewrap = false
  faultNotDone : (r.status.ecap || r.status.eill || r.status.ewrap) = true → r.status.done = false
  oneFault : (r.status.ecap && r.status.eill) = false ∧ (r.status.ecap && r.status.ewrap) = false ∧
    (r.status.eill && r.status.ewrap) = false
  racedSpan : ∀ a ∈ r.raced, a ∈ r.span
  racedNodup : r.raced.Nodup

/-- The register blocks are 64-byte aligned and lie apart (R6, R233). -/
def BlocksApart (us : List PkuUnit) : Prop :=
  (∀ r ∈ us, r.regbase % 64 = 0) ∧ (us.map PkuUnit.regbase).Nodup

/-- The invariant of the machine: the memory is canonical and inside `Mem` (R50), the parameters are legal (R6), the unit
in hand exists, and every unit keeps `UnitInv`. -/
structure Inv (s : State) : Prop where
  memWf : Memory.wf s.mem = true
  memBound : ∀ c ∈ s.mem, c.1 < 2 ^ s.addrw
  addrw : 1 ≤ s.addrw ∧ s.addrw ≤ 64
  curLt : s.cur < s.units.length
  blocks : BlocksApart s.units
  units : ∀ r ∈ s.units, UnitInv s.addrw r

/-- The unit in hand is `r`, idle: a CMD write to it is not ignored when it is also not halted (R35). -/
def Idle (s : State) (r : PkuUnit) : Prop := s.unit? = some r ∧ r.status.busy = false

/-- The conditions of R111 under which a command of width `W` is accepted, on unbounded integers. -/
def Fits (addrw W : Nat) (r : PkuUnit) : Prop :=
  r.off.toNat + W ≤ 8 * r.len.toNat ∧ r.base.toNat + r.len.toNat ≤ 2 ^ addrw

/-- The unit in hand is `r`, with a command of width `W` accepted and not yet performed (R24), and no race met. -/
def Performing (s : State) (r : PkuUnit) (W : Nat) : Prop :=
  s.unit? = some r ∧ r.status.busy = true ∧ Fits s.addrw W r ∧ r.raced = []

/-- `r` after the completion step: BUSY <- 0, DONE <- 1, every other STATUS bit as it was (R112). -/
def finishedStatus (st : Status) : Status := { st with busy := false, done := true }

/-- The opcode map of R74: each command with its word, as the table of 30_encoding.md writes it. -/
def opcodeMap : List (Instr × Word) :=
  [(.unpackBool, 0x00000001#32), (.packBool, 0x00000002#32), (.unpackU8, 0x00000005#32), (.packU8, 0x00000006#32),
    (.unpackU16, 0x00000009#32), (.packU16, 0x0000000A#32), (.unpackU32, 0x0000000D#32), (.packU32, 0x0000000E#32),
    (.unpackU64, 0x00000011#32), (.packU64, 0x00000012#32), (.unpackU128, 0x00000015#32),
    (.packU128, 0x00000016#32), (.unpackUptr, 0x00000019#32), (.packUptr, 0x0000001A#32)] ++
  [(.unpackI8, 0x00000025#32), (.packI8, 0x00000026#32), (.unpackI16, 0x00000029#32), (.packI16, 0x0000002A#32),
    (.unpackI32, 0x0000002D#32), (.packI32, 0x0000002E#32), (.unpackI64, 0x00000031#32), (.packI64, 0x00000032#32),
    (.unpackI128, 0x00000035#32), (.packI128, 0x00000036#32), (.unpackIptr, 0x00000039#32),
    (.packIptr, 0x0000003A#32)]

/-- The unsigned UNPACK commands with their widths (R132 to R142). -/
def unpackUnsignedForms : List (Instr × (PtrWidth → Nat)) :=
  [(.unpackU8, fun _ => 8), (.unpackU16, fun _ => 16), (.unpackU32, fun _ => 32), (.unpackU64, fun _ => 64),
    (.unpackU128, fun _ => 128), (.unpackUptr, PtrWidth.bits)]

/-- The unsigned PACK commands with their widths (R133 to R143). -/
def packUnsignedForms : List (Instr × (PtrWidth → Nat)) :=
  [(.packU8, fun _ => 8), (.packU16, fun _ => 16), (.packU32, fun _ => 32), (.packU64, fun _ => 64),
    (.packU128, fun _ => 128), (.packUptr, PtrWidth.bits)]

/-- The signed UNPACK commands with their widths (R152 to R162). -/
def unpackSignedForms : List (Instr × (PtrWidth → Nat)) :=
  [(.unpackI8, fun _ => 8), (.unpackI16, fun _ => 16), (.unpackI32, fun _ => 32), (.unpackI64, fun _ => 64),
    (.unpackI128, fun _ => 128), (.unpackIptr, PtrWidth.bits)]

/-- The signed PACK commands with their widths (R153 to R163). -/
def packSignedForms : List (Instr × (PtrWidth → Nat)) :=
  [(.packI8, fun _ => 8), (.packI16, fun _ => 16), (.packI32, fun _ => 32), (.packI64, fun _ => 64),
    (.packI128, fun _ => 128), (.packIptr, PtrWidth.bits)]

/-- The signed and the unsigned PACK of one width (R151). -/
def packPairs : List (Instr × Instr × (PtrWidth → Nat)) :=
  [(.packI8, .packU8, fun _ => 8), (.packI16, .packU16, fun _ => 16), (.packI32, .packU32, fun _ => 32),
    (.packI64, .packU64, fun _ => 64), (.packI128, .packU128, fun _ => 128), (.packIptr, .packUptr, PtrWidth.bits)]

/-- The registers a host write changes when the unit is idle: the operand registers (R20). -/
def operandRegs : List Reg :=
  [.offLo, .offHi, .baseLo, .baseHi, .lenLo, .lenHi, .data0, .data1, .data2, .data3]

/-- CFG and the reserved offsets: a write to them has no effect (R21, R32). -/
def readOnlyRegs : List Reg := [.cfg, .rsv0C, .rsv28, .rsv2C]

/-- How many units are busy. -/
def numBusy (us : List PkuUnit) : Nat := us.countP (fun r => r.status.busy)

/-- The parameters of the units (R6), which no step changes (R21, R250). -/
def unitParams (us : List PkuUnit) : List (PtrWidth × Nat) := us.map (fun r => (r.ptrw, r.regbase))

/-- The turn that the next step takes (log 5). -/
def nextTurn (s : State) : Turn :=
  match s.schedule with
  | t :: _ => t
  | [] => defaultTurn s

/-- The host address and the word of the register write that the host program's next statement makes, if it is a `wr` (R77). -/
def hostWrite? (s : State) : Option (Nat × Word) :=
  match s.host.prog[s.host.pos]? with
  | some (.wr u reg e) =>
    match evalExpr s.host.vars e, regAddr? s u reg with
    | some v, some a => some (a, BitVec.ofInt 32 v)
    | _, _ => none
  | _ => none

/-- The host address and the word of the aligned 32-bit register write that the next step makes, if it makes one: that of a
scheduled access or of the host program's statement. -/
def nextWrite? (s : State) : Option (Nat × Word) :=
  match nextTurn s with
  | .access (.regWrite a .word w) => some (a, w)
  | .host => hostWrite? s
  | _ => none

/-- The primitive types of a composite in declaration order (R202, R203, R205): an array's are its element's, once an
element; a tuple's are its members', one member after another. -/
def tyCodes : Ty → List TypeCode
  | .prim tc => [tc]
  | .array e n => (List.replicate n (tyCodes e)).flatten
  | .unit => []
  | .cons h t => tyCodes h ++ tyCodes t

/-- A tuple of primitive types (R203). -/
def tupleOf : List Ty → Ty
  | [] => .unit
  | t :: ts => .cons t (tupleOf ts)

/-- Fields at disjoint position ranges (R108, R110). -/
def Apart (l l' : LeafValue) : Prop := l.off + l.width ≤ l'.off ∨ l'.off + l'.width ≤ l.off

end Sys2Proof.Machine
end

