-- ==== Sys2Proof/Certificates/Slice0/Obligations.lean ====
section
/-! DEFINITION. The statements for the provers. Each docstring names the rule of spec/ it formalises. In a statement about
the completion step, `Performing s r W` says that the unit in hand is `r`, busy, with a command of width `W` accepted (the
conditions of R111) and no race met. -/

open Sys2Proof Sys2Proof.Machine

/-! ## Encoding -/

/-- R74: the words of a few rows of the table, of every family. -/
def Obligations.TableWordsDecode : Prop :=
  decode 0x00000001#32 = .ok .unpackBool ∧ decode 0x00000002#32 = .ok .packBool ∧
  decode 0x00000005#32 = .ok .unpackU8 ∧ decode 0x0000000A#32 = .ok .packU16 ∧
  decode 0x0000000D#32 = .ok .unpackU32 ∧ decode 0x00000012#32 = .ok .packU64 ∧
  decode 0x00000015#32 = .ok .unpackU128 ∧ decode 0x0000001A#32 = .ok .packUptr ∧
  decode 0x00000025#32 = .ok .unpackI8 ∧ decode 0x0000002A#32 = .ok .packI16 ∧
  decode 0x0000002D#32 = .ok .unpackI32 ∧ decode 0x00000032#32 = .ok .packI64 ∧
  decode 0x00000035#32 = .ok .unpackI128 ∧ decode 0x0000003A#32 = .ok .packIptr

/-- R74: the legal command words are exactly the 26 of the opcode map, each the word of its command; and they are exactly the
encoder's words. -/
def Obligations.DecodeAcceptsExactlyTheEncodings : Prop :=
  ∀ (w : Word) (i : Instr), (decode w = .ok i ↔ (i, w) ∈ opcodeMap) ∧ (decode w = .ok i ↔ w = encode i)

/-! ## A step runs the decoded command -/

/-- R112: when it is unit `u`'s turn and `u` is busy with a CMD that decodes to `i`, the step is `exec i`. -/
def Obligations.CompletionStepRunsDecodedCommand : Prop :=
  ∀ (s : State) (u : Nat) (r : PkuUnit) (i : Instr) (rest : List Turn),
    s.schedule = .complete u :: rest → s.units[u]? = some r → r.status.busy = true → decode r.cmd = .ok i →
      step s = exec i { s with schedule := rest, cur := u }

/-- R35, R111: a CMD write of a legal word to a unit that is neither busy nor halted runs the decoded command's issue. -/
def Obligations.CmdWriteRunsDecodedCommand : Prop :=
  ∀ (s : State) (u : Nat) (r : PkuUnit) (i : Instr) (w : Word) (rest : List Turn),
    BlocksApart s.units → s.units[u]? = some r → r.status.busy = false → r.status.halted = false →
    decode w = .ok i → s.schedule = .access (.regWrite (r.regbase + 0x04) .word w) :: rest →
      step s = exec i { s with schedule := rest, cur := u }

/-- R77: the host statement `cmd MNEMONIC` writes the command's word to CMD and goes on. -/
def Obligations.HostCmdStatementIssues : Prop :=
  ∀ (s t : State) (u : Nat) (r : PkuUnit) (i : Instr) (rest : List Turn),
    BlocksApart s.units → s.units[u]? = some r → r.status.busy = false → r.status.halted = false →
    s.schedule = .host :: rest → s.host.prog[s.host.pos]? = some (stmtCmd u i) →
    exec i { s with schedule := rest, cur := u } = .next t →
      step s = .next { t with host := { t.host with pos := t.host.pos + 1 } }

/-! ## Issue (R111) -/

/-- R111: a command whose operands fit is accepted: CMD holds its word, BUSY = 1, DONE = 0, nothing else of the unit changes,
nor memory, nor any other unit, but for the model's record of races (R63, log 8). The unit's own record holds exactly the
bytes of its span that another unit's PACK in flight spans; another unit's record gains exactly the bytes that a PACK
accepted here shares with its span. -/
def Obligations.FittingCommandIsAccepted : Prop :=
  ∀ (i : Instr) (s : State) (r : PkuUnit), Idle s r → Fits s.addrw (typeWidth r.ptrw i.typeCode) r →
    ∃ us q, exec i s = .next { s with units := us } ∧ us.length = s.units.length ∧
      us[s.cur]? = some { r with
        cmd := encode i, status := { r.status with busy := true, done := false }, raced := q } ∧
      (∀ a, a ∈ q ↔ a ∈ spanAddrs r.base.toNat r.off.toNat (typeWidth r.ptrw i.typeCode) ∧
        ∃ (k : Nat) (v : PkuUnit), k ≠ s.cur ∧ s.units[k]? = some v ∧ a ∈ v.writeSpan) ∧
      ∀ (k : Nat) (v : PkuUnit), k ≠ s.cur → s.units[k]? = some v →
        ∃ q', us[k]? = some { v with raced := q' } ∧
          ∀ a, a ∈ q' ↔ a ∈ v.raced ∨ (i.op = .pack ∧ a ∈ v.span ∧
            a ∈ spanAddrs r.base.toNat r.off.toNat (typeWidth r.ptrw i.typeCode))

/-- R223, R226: a CMD write, not ignored, of a legal word whose field does not fit in the buffer raises ECAP and does nothing
else; so does the command's issue. -/
def Obligations.ShortBufferRaisesEcap : Prop :=
  ∀ (i : Instr) (s : State) (u : Nat) (r : PkuUnit), s.units[u]? = some r → r.status.busy = false →
    8 * r.len.toNat < r.off.toNat + typeWidth r.ptrw i.typeCode →
      ∃ t, t = { s.putUnit u { r with
          cmd := encode i, status := { r.status with done := false, ecap := true } } with cur := u } ∧
        exec i { s with cur := u } = .next t ∧
        (r.status.halted = false → writeReg u .cmd (encode i) s = .next t)

/-- R224, R226: a CMD write, not ignored, of a legal word that passes the capacity check and whose window passes the top of
`Mem` raises EWRAP and does nothing else; so does the command's issue. -/
def Obligations.WrappingWindowRaisesEwrap : Prop :=
  ∀ (i : Instr) (s : State) (u : Nat) (r : PkuUnit), s.units[u]? = some r → r.status.busy = false →
    r.off.toNat + typeWidth r.ptrw i.typeCode ≤ 8 * r.len.toNat →
    2 ^ s.addrw < r.base.toNat + r.len.toNat →
      ∃ t, t = { s.putUnit u { r with
          cmd := encode i, status := { r.status with done := false, ewrap := true } } with cur := u } ∧
        exec i { s with cur := u } = .next t ∧
        (r.status.halted = false → writeReg u .cmd (encode i) s = .next t)

/-- R75, R222: a CMD write, not ignored, of a word that is none of the 26 is stored and raises EILL; no other effect. -/
def Obligations.IllegalWordRaisesEill : Prop :=
  ∀ (s : State) (u : Nat) (r : PkuUnit) (w : Word), s.units[u]? = some r → r.status.busy = false →
    r.status.halted = false → (∀ i, w ≠ encode i) →
      writeReg u .cmd w s = .next { s.putUnit u { r with
        cmd := w, status := { r.status with done := false, eill := true } } with cur := u }

/-- R228: while an error bit is set and the unit is not busy, a CMD write is ignored whatever the word and OFF, BASE, LEN and
DATA are still written; a command accepted before the error bit was set still completes. -/
def Obligations.HaltedUnitIgnoresCommands : Prop :=
  ∀ (s : State) (u : Nat) (r : PkuUnit), s.units[u]? = some r →
    (r.status.ecap = true ∨ r.status.eill = true ∨ r.status.ewrap = true ∨ r.status.ebusy = true) →
      (r.status.busy = false → ∀ w : Word, writeReg u .cmd w s = .next s ∧
        ∀ reg ∈ operandRegs, writeReg u reg w s = .next (s.putUnit u (storeReg r w reg))) ∧
      ∀ i : Instr, r.status.busy = true → decode r.cmd = .ok i → Fits s.addrw (typeWidth r.ptrw i.typeCode) r →
        ∃ t r', runTurn (.complete u) s = .next t ∧ t.units[u]? = some r' ∧ r'.status = finishedStatus r.status

/-- R64, R62, R63: a command meets no race and causes none when it is accepted while every other unit's command in flight, if
there is one, either is an UNPACK, as the accepted command is, or spans no byte that the accepted command spans. -/
def Obligations.UnpacksDoNotRace : Prop :=
  ∀ (i : Instr) (s : State) (r : PkuUnit), Idle s r → Fits s.addrw (typeWidth r.ptrw i.typeCode) r →
    (∀ (k : Nat) (v : PkuUnit), k ≠ s.cur → s.units[k]? = some v →
      (i.op = .unpack ∧ ∀ j, v.inFlight = some j → j.op = .unpack) ∨
      ∀ a ∈ spanAddrs r.base.toNat r.off.toNat (typeWidth r.ptrw i.typeCode), a ∉ v.span) →
      exec i s = .next (s.setUnit { r with
        cmd := encode i, status := { r.status with busy := true, done := false }, raced := [] })

/-- R63: when a PACK is accepted, every byte of its span that is in the span of another unit's command in flight is raced
for that unit; and when any command, UNPACK or PACK, is accepted, every byte of its span that is in the span of another
unit's PACK in flight is raced for it. -/
def Obligations.OverlappingPackRaces : Prop :=
  ∀ (i : Instr) (s t : State) (r : PkuUnit) (k : Nat) (v : PkuUnit) (a : Nat), Idle s r →
    Fits s.addrw (typeWidth r.ptrw i.typeCode) r → k ≠ s.cur → s.units[k]? = some v →
    a ∈ spanAddrs r.base.toNat r.off.toNat (typeWidth r.ptrw i.typeCode) → exec i s = .next t →
      (i.op = .pack → a ∈ v.span → ∃ v', t.units[k]? = some v' ∧ a ∈ v'.raced) ∧
      (a ∈ v.writeSpan → ∃ r', t.units[s.cur]? = some r' ∧ a ∈ r'.raced)

/-! ## Completion (R112): results and frames -/

/-- R120: UNPACK.BOOL writes the tested bit, zero-extended; nothing else but STATUS changes. -/
def Obligations.UnpackBoolResult : Prop :=
  ∀ (s : State) (r : PkuUnit), Performing s r 1 →
    exec .unpackBool s = .next (s.setUnit { r with
      data := if Memory.read s.mem (r.base.toNat + r.off.toNat / 8) &&& (1#8 <<< (7 - r.off.toNat % 8)) ≠ 0#8
        then 1#128 else 0#128
      status := finishedStatus r.status })

/-- R121: PACK.BOOL clears the bit and ORs in DATA[0]; one byte is written; nothing else but STATUS changes. -/
def Obligations.PackBoolResult : Prop :=
  ∀ (s : State) (r : PkuUnit), Performing s r 1 →
    let a := r.base.toNat + r.off.toNat / 8
    let t := r.off.toNat % 8
    exec .packBool s = .next { s.setUnit { r with status := finishedStatus r.status } with
      mem := Memory.write s.mem a
        ((Memory.read s.mem a &&& ~~~(1#8 <<< (7 - t))) ||| ((r.data.extractLsb' 0 1).setWidth 8 <<< (7 - t))) }

/-- R130 and its instances: an unsigned UNPACK writes the field, zero-extended, to DATA; nothing else but STATUS changes (no
byte of memory, no other register, no other unit). -/
def Obligations.UnpackUnsignedResult : Prop :=
  ∀ f ∈ unpackUnsignedForms, ∀ (s : State) (r : PkuUnit), Performing s r (f.2 r.ptrw) →
    ∃ d : Data,
      exec f.1 s = .next (s.setUnit { r with data := d, status := finishedStatus r.status }) ∧
      ∀ k, k < 128 → d.getLsbD k =
        if k < f.2 r.ptrw then bufBit s.mem r.base.toNat (r.off.toNat + (f.2 r.ptrw - 1 - k)) else false

/-- R150 and its instances: a signed UNPACK writes the field, sign-extended from its first bit, to DATA; nothing else but
STATUS changes. -/
def Obligations.UnpackSignedResult : Prop :=
  ∀ f ∈ unpackSignedForms, ∀ (s : State) (r : PkuUnit), Performing s r (f.2 r.ptrw) →
    ∃ d : Data,
      exec f.1 s = .next (s.setUnit { r with data := d, status := finishedStatus r.status }) ∧
      ∀ k, k < 128 → d.getLsbD k =
        if k < f.2 r.ptrw then bufBit s.mem r.base.toNat (r.off.toNat + (f.2 r.ptrw - 1 - k))
        else bufBit s.mem r.base.toNat r.off.toNat

/-- R131 and its instances: an unsigned PACK puts DATA[N-1:0] at the field's positions, leaves every other buffer bit and
every byte outside the span, and changes nothing else but STATUS (DATA included). -/
def Obligations.PackUnsignedResult : Prop :=
  ∀ f ∈ packUnsignedForms, ∀ (s : State) (r : PkuUnit), Memory.wf s.mem = true → Performing s r (f.2 r.ptrw) →
    ∃ m : Memory,
      exec f.1 s = .next { s.setUnit { r with status := finishedStatus r.status } with mem := m } ∧
      (∀ a, a ∉ spanAddrs r.base.toNat r.off.toNat (f.2 r.ptrw) → Memory.read m a = Memory.read s.mem a) ∧
      ∀ p, bufBit m r.base.toNat p =
        if r.off.toNat ≤ p ∧ p < r.off.toNat + f.2 r.ptrw
        then r.data.getLsbD (f.2 r.ptrw - 1 - (p - r.off.toNat)) else bufBit s.mem r.base.toNat p

/-- R151 and its instances: a signed PACK does with DATA[N-1:0] exactly what the unsigned PACK of its width does. -/
def Obligations.PackSignedResult : Prop :=
  ∀ f ∈ packSignedForms, ∀ (s : State) (r : PkuUnit), Memory.wf s.mem = true → Performing s r (f.2 r.ptrw) →
    ∃ m : Memory,
      exec f.1 s = .next { s.setUnit { r with status := finishedStatus r.status } with mem := m } ∧
      (∀ a, a ∉ spanAddrs r.base.toNat r.off.toNat (f.2 r.ptrw) → Memory.read m a = Memory.read s.mem a) ∧
      ∀ p, bufBit m r.base.toNat p =
        if r.off.toNat ≤ p ∧ p < r.off.toNat + f.2 r.ptrw
        then r.data.getLsbD (f.2 r.ptrw - 1 - (p - r.off.toNat)) else bufBit s.mem r.base.toNat p

/-- R151: the signed and the unsigned PACK of one width write the same bytes for the same DATA[N-1:0], whatever the rest of
DATA. -/
def Obligations.SignedPackWritesUnsignedBytes : Prop :=
  ∀ f ∈ packPairs, ∀ (s : State) (r : PkuUnit) (d : Data), Performing s r (f.2.2 r.ptrw) →
    (∀ k, k < f.2.2 r.ptrw → d.getLsbD k = r.data.getLsbD k) →
      ∃ m : Memory,
        exec f.1 s = .next { s.setUnit { r with status := finishedStatus r.status } with mem := m } ∧
        exec f.2.1 (s.setUnit { r with data := d }) =
          .next { s.setUnit { r with data := d, status := finishedStatus r.status } with mem := m }

/-- R63 (c): an UNPACK that met a race completes; only DATA (any value), STATUS and the model's counters change. -/
def Obligations.RacedUnpackCompletes : Prop :=
  ∀ (i : Instr) (s : State) (r : PkuUnit), i.op = .unpack → s.unit? = some r → r.status.busy = true →
    Fits s.addrw (typeWidth r.ptrw i.typeCode) r →
      ∃ d n, exec i s = .next { s.setUnit { r with data := d, status := finishedStatus r.status, raced := [] } with
        draws := n }

/-- R63 (a): a PACK that met races completes; a byte that no other agent wrote holds what R104 says, and bytes outside the
span are unaffected. -/
def Obligations.RacedPackKeepsOtherBytes : Prop :=
  ∀ (i : Instr) (s : State) (r : PkuUnit), i.op = .pack → Memory.wf s.mem = true → s.unit? = some r →
    r.status.busy = true → Fits s.addrw (typeWidth r.ptrw i.typeCode) r →
      ∃ m n, exec i s = .next { s.setUnit { r with status := finishedStatus r.status, raced := [] } with
          mem := m, draws := n } ∧
        ∀ a, a ∉ spanAddrs r.base.toNat r.off.toNat (typeWidth r.ptrw i.typeCode) ∨ a ∉ r.raced →
          Memory.read m a = Memory.read
            (insertField s.mem r.base.toNat r.off.toNat (typeWidth r.ptrw i.typeCode)
              (r.data.toNat % 2 ^ typeWidth r.ptrw i.typeCode)) a

/-- R112: the completion step of any busy unit, in any state that meets the invariant, completes the command: BUSY <- 0,
DONE <- 1, no error bit changes, and no other unit changes. It cannot fault. -/
def Obligations.CompletionCannotFault : Prop :=
  ∀ (s : State) (u : Nat) (r : PkuUnit) (rest : List Turn), Inv s → s.schedule = .complete u :: rest →
    s.units[u]? = some r → r.status.busy = true →
      ∃ t r', step s = .next t ∧ t.units[u]? = some r' ∧ r'.status = finishedStatus r.status ∧ t.schedule = rest ∧
        ∀ k, k ≠ u → t.units[k]? = s.units[k]?

/-- Log 6 and log 13 (the model's choice, for states no run reaches, R113): a command of a unit that does not exist stops, and
so does a busy unit whose span is not inside `Mem`. -/
def Obligations.UnreachableCommandsStop : Prop :=
  ∀ (i : Instr) (s : State),
    (s.unit? = none → exec i s = .fault .noSuchUnit) ∧
    ∀ r : PkuUnit, s.unit? = some r → r.status.busy = true →
      2 ^ s.addrw < r.base.toNat + r.off.toNat / 8 + spanBytes r.off.toNat (typeWidth r.ptrw i.typeCode) →
        exec i s = .fault .addressOutsideMem

/-! ## The field kernel -/

/-- R105: the document's byte algorithm for Extract gives the bit-position definition, for every N that is a positive
multiple of 8; and for every W the field is the span read as one big-endian number, shifted right and cut to W bits. -/
def Obligations.ExtractBytesIsExtract : Prop :=
  ∀ (m : Memory) (base o : Nat),
    (∀ n, 0 < n → extractBytes m base o (8 * n) = extract m base o (8 * n)) ∧
    ∀ W, 0 < W → extract m base o W =
      (extract m base (8 * (o / 8)) (8 * spanBytes o W) >>> frameShift o W) % 2 ^ W

/-- R106: the corrected byte algorithm for Insert leaves memory exactly as the bit-position definition does. -/
def Obligations.InsertBytesIsInsert : Prop :=
  ∀ (m : Memory) (base o W v : Nat), v < 2 ^ W →
    insertBytes m base o W v = insertField m base o W v

/-- R107: at a byte-aligned offset, Insert writes the big-endian bytes of the value and nothing else, and Extract reads them
back as a big-endian number. -/
def Obligations.AlignedFieldIsBigEndian : Prop :=
  ∀ (m : Memory) (base q n v : Nat), Memory.wf m = true → v < 2 ^ (8 * n) →
    (∀ j, j < n → Memory.read (insertField m base (8 * q) (8 * n) v) (base + q + j) =
      BitVec.ofNat 8 (v / 2 ^ (8 * (n - 1 - j)))) ∧
    (∀ a, a < base + q ∨ base + q + n ≤ a →
      Memory.read (insertField m base (8 * q) (8 * n) v) a = Memory.read m a) ∧
    extract m base (8 * q) (8 * n) < 2 ^ (8 * n) ∧
    ∀ j, j < n → extract m base (8 * q) (8 * n) / 2 ^ (8 * (n - 1 - j)) % 256 =
      (Memory.read m (base + q + j)).toNat

/-- R108: Insert changes no buffer bit outside its field and no byte outside its span, so Extract of a field at a disjoint
position range is the same before and after. -/
def Obligations.InsertDisturbsNothingElse : Prop :=
  ∀ (m : Memory) (base o W v : Nat), Memory.wf m = true →
    (∀ p, p < o ∨ o + W ≤ p → bufBit (insertField m base o W v) base p = bufBit m base p) ∧
    (∀ a, a ∉ spanAddrs base o W → Memory.read (insertField m base o W v) a = Memory.read m a) ∧
    ∀ o' W', o' + W' ≤ o ∨ o + W ≤ o' → extract (insertField m base o W v) base o' W' = extract m base o' W'

/-- R110: Insert is idempotent and last-writer-wins on its field, and Inserts to disjoint position ranges commute. -/
def Obligations.InsertsOverwriteAndCommute : Prop :=
  ∀ (m : Memory) (base o W v o' W' v' : Nat), Memory.wf m = true →
    insertField (insertField m base o W v') base o W v = insertField m base o W v ∧
    (o + W ≤ o' ∨ o' + W' ≤ o →
      insertField (insertField m base o W v) base o' W' v' = insertField (insertField m base o' W' v') base o W v)

/-- R55: Extract reads a field by position, whatever commands wrote the bits; and at the combined width it is the
concatenation of the members, the first most significant. -/
def Obligations.FieldsAreReadByPosition : Prop :=
  ∀ (m : Memory) (base o W : Nat),
    (∀ k, (extract m base o W).testBit k = (decide (k < W) && bufBit m base (o + (W - 1 - k)))) ∧
    ∀ W', extract m base o (W + W') = extract m base o W * 2 ^ W' + extract m base (o + W) W'

/-- R113: every address of an accepted command's span is inside the buffer and inside `Mem`. -/
def Obligations.AcceptedSpanInsideBuffer : Prop :=
  ∀ (addrw W : Nat) (r : PkuUnit), Fits addrw W r → ∀ a ∈ spanAddrs r.base.toNat r.off.toNat W,
    r.base.toNat ≤ a ∧ a < r.base.toNat + r.len.toNat ∧ a < 2 ^ addrw

/-- R101: the number of bytes a field spans is ceil((bit_off + W) / 8); its value for widths that are multiples of 8 and for
width 1; when the first and the last span byte are partly outside the field. -/
def Obligations.SpanByteCounts : Prop :=
  (∀ o W, o % 8 + W ≤ 8 * spanBytes o W ∧ 8 * spanBytes o W < o % 8 + W + 8) ∧
  (∀ o, spanBytes o 1 = 1) ∧
  (∀ o n, 0 < n → spanBytes o (8 * n) = if o % 8 = 0 then n else n + 1) ∧
  ∀ o W, (8 * (o / 8) < o ↔ o % 8 ≠ 0) ∧ (o + W < 8 * (o / 8 + spanBytes o W) ↔ (o % 8 + W) % 8 ≠ 0)

/-- R109: Extract of a field just inserted is its value; and PACK then UNPACK of one type at one offset, through the registers
of a unit that is the only busy one, returns the low W bits of DATA, zero- or sign-extended, whatever the offset. -/
def Obligations.UnpackOfPackReturnsValue : Prop :=
  (∀ (m : Memory) (base o W v : Nat), Memory.wf m = true → v < 2 ^ W →
    extract (insertField m base o W v) base o W = v) ∧
  ∀ (tc : TypeCode) (s : State) (u : Nat) (r : PkuUnit) (rest : List Turn),
    BlocksApart s.units → Memory.wf s.mem = true → s.units[u]? = some r → (∀ v ∈ s.units, v.status.busy = false) →
    r.status.halted = false → Fits s.addrw (typeWidth r.ptrw tc) r →
    s.schedule = [.access (.regWrite (r.regbase + 0x04) .word (encode (Instr.ofParts .pack tc))), .complete u,
      .access (.regWrite (r.regbase + 0x04) .word (encode (Instr.ofParts .unpack tc))), .complete u] ++ rest →
      ∃ t r', Host.Core.run Sys2Proof.core 4 s = .next t ∧ t.units[u]? = some r' ∧
        r'.status = finishedStatus r.status ∧
        ∀ k, k < 128 → r'.data.getLsbD k =
          if k < typeWidth r.ptrw tc then r.data.getLsbD k
          else tc.isSigned && r.data.getLsbD (typeWidth r.ptrw tc - 1)

/-! ## Registers -/

/-- R20, R28 to R31: a write to an operand register of an idle unit, halted or not (R228), is read back as written, and no
other register of any unit, and no byte of memory, changes. -/
def Obligations.OperandRegisterReadsBack : Prop :=
  ∀ reg ∈ operandRegs, ∀ (s : State) (u : Nat) (r : PkuUnit) (w : Word), BlocksApart s.units →
    s.units[u]? = some r → r.status.busy = false →
      ∃ r', busAccess (.regWrite (r.regbase + regOffset reg) .word w) s = .next (s.putUnit u r') ∧
        r'.ptrw = r.ptrw ∧ r'.regbase = r.regbase ∧ r'.status = r.status ∧ r'.raced = r.raced ∧
        ∀ reg', regWord s.addrw r' reg' = if reg' = reg then w else regWord s.addrw r reg'

/-- R35, R225: a write to CMD or an operand register of a busy unit is lost and sets EBUSY; nothing else changes. -/
def Obligations.BusyWriteSetsEbusy : Prop :=
  ∀ reg ∈ (Reg.cmd :: operandRegs), ∀ (s : State) (u : Nat) (r : PkuUnit) (w : Word), BlocksApart s.units →
    s.units[u]? = some r → r.status.busy = true →
      busAccess (.regWrite (r.regbase + regOffset reg) .word w) s =
        .next (s.putUnit u { r with status := { r.status with ebusy := true } })

/-- R23: a write to STATUS clears exactly the bits 5:1 that it writes as 1, busy or not. -/
def Obligations.StatusWriteOneToClear : Prop :=
  ∀ (s : State) (u : Nat) (r : PkuUnit) (w : Word), BlocksApart s.units → s.units[u]? = some r →
    ∃ st, busAccess (.regWrite (r.regbase + 0x08) .word w) s = .next (s.putUnit u { r with status := st }) ∧
      st.toWord.getLsbD 0 = r.status.toWord.getLsbD 0 ∧
      (∀ b, 1 ≤ b → b ≤ 5 → st.toWord.getLsbD b = (r.status.toWord.getLsbD b && !w.getLsbD b)) ∧
      ∀ b, 6 ≤ b → st.toWord.getLsbD b = false

/-- R21, R32: a write to CFG or to an unused offset has no effect, busy or not; the unused offsets read as zero. -/
def Obligations.ReadOnlyRegistersIgnoreWrites : Prop :=
  ∀ reg ∈ readOnlyRegs, ∀ (s : State) (u : Nat) (r : PkuUnit) (w : Word), BlocksApart s.units →
    s.units[u]? = some r →
      busAccess (.regWrite (r.regbase + regOffset reg) .word w) s = .next s ∧
      (reg ≠ .cfg → busAccess (.regRead (r.regbase + regOffset reg) .word) s = .next { s with rdReg := 0#32 })

/-- R21: CFG reports PTRW's width code in bits 2:0 and ADDRW in bits 14:8, its other bits are 0; a write to it has no effect,
and the unit's reset does not change it. -/
def Obligations.CfgReportsParameters : Prop :=
  ∀ (s : State) (u : Nat) (r : PkuUnit), BlocksApart s.units → s.units[u]? = some r → 1 ≤ s.addrw → s.addrw ≤ 64 →
    ∃ x : Word, busAccess (.regRead r.regbase .word) s = .next { s with rdReg := x } ∧
      x.toNat = s.addrw * 2 ^ 8 + (match r.ptrw with | .p16 => 2 | .p32 => 3 | .p64 => 4) ∧
      (∀ w, busAccess (.regWrite r.regbase .word w) s = .next s) ∧
      ∀ t, runTurn (.reset u) s = .next t → busAccess (.regRead r.regbase .word) t = .next { t with rdReg := x }

/-- R38: an access to the block that is not an aligned 32-bit one: a write has no effect, a read returns 0. -/
def Obligations.UndecodedAccessHasNoEffect : Prop :=
  ∀ (s : State) (u : Nat) (r : PkuUnit) (offset : Nat) (size : AccessSize) (w : Word), BlocksApart s.units →
    s.units[u]? = some r → offset < 64 → (size ≠ .word ∨ offset % 4 ≠ 0) →
      busAccess (.regWrite (r.regbase + offset) size w) s = .next s ∧
      busAccess (.regRead (r.regbase + offset) size) s = .next { s with rdReg := 0#32 }

/-- R36: a read returns the register's value and changes nothing, but that DATA read while busy returns any word. -/
def Obligations.RegisterReads : Prop :=
  ∀ (s : State) (u : Nat) (r : PkuUnit) (reg : Reg), BlocksApart s.units → s.units[u]? = some r →
    ((r.status.busy = false ∨ isDataReg reg = false) →
      busAccess (.regRead (r.regbase + regOffset reg) .word) s = .next { s with rdReg := regWord s.addrw r reg }) ∧
    ((r.status.busy = true ∧ isDataReg reg = true) →
      ∃ x n, busAccess (.regRead (r.regbase + regOffset reg) .word) s = .next { s with rdReg := x, draws := n })

/-! ## Reset -/

/-- R37: every register of every unit right after reset: CFG its constant, every other zero; the unit is idle and not
halted. -/
def Obligations.ResetRegisterValues : Prop :=
  ∀ r ∈ State.reset.units, r.status.busy = false ∧ r.status.halted = false ∧
    ∀ reg, regWord State.reset.addrw r reg = if reg = .cfg then cfgWord State.reset.addrw r.ptrw else 0#32

/-- R250, R252: reset of a unit that is not busy zeroes its registers, keeps its parameters, and changes neither memory nor
any other unit. -/
def Obligations.ResetKeepsMemory : Prop :=
  ∀ (s : State) (u : Nat) (r : PkuUnit), s.units[u]? = some r → r.status.busy = false →
    runTurn (.reset u) s = .next (s.putUnit u
      { ptrw := r.ptrw, regbase := r.regbase, cmd := 0#32, status := Status.reset, off := 0#64, base := 0#64,
        len := 0#64, data := 0#128, raced := [] })

/-- R251 and R63 (a): reset of a busy unit zeroes its registers. If it performed an UNPACK, memory is unchanged. If it performed
a PACK, each byte of the span that is not noted as raced holds its old value or the value the completion step would have
written, and every byte outside the span is unchanged. That a byte noted as raced may hold any value afterwards is the
model's deduction (log 10), and so is that an overlap of two commands in flight is enough for the note (log 8). -/
def Obligations.ResetAbandonsCommand : Prop :=
  ∀ (s : State) (u : Nat) (r : PkuUnit) (i : Instr), Memory.wf s.mem = true → s.units[u]? = some r →
    r.inFlight = some i → Fits s.addrw (typeWidth r.ptrw i.typeCode) r →
      ∃ m n, runTurn (.reset u) s = .next { s.putUnit u
          { ptrw := r.ptrw, regbase := r.regbase, cmd := 0#32, status := Status.reset, off := 0#64, base := 0#64,
            len := 0#64, data := 0#128, raced := [] } with mem := m, draws := n } ∧
        (i.op = .unpack → m = s.mem) ∧
        (∀ a, a ∉ r.span → Memory.read m a = Memory.read s.mem a) ∧
        ∀ a, a ∈ r.span → a ∉ r.raced →
          Memory.read m a = Memory.read s.mem a ∨
          Memory.read m a = Memory.read (insertField s.mem r.base.toNat r.off.toNat (typeWidth r.ptrw i.typeCode)
            (r.data.toNat % 2 ^ typeWidth r.ptrw i.typeCode)) a

/-! ## Host accesses to memory -/

/-- R51, R63: a host write to an address of `Mem` sets that byte and no other, and changes no register; it races exactly the
commands in flight whose span holds the byte (log 8). -/
def Obligations.HostMemoryWrite : Prop :=
  ∀ (s : State) (a : Nat) (b : Byte), Memory.wf s.mem = true → a < 2 ^ s.addrw →
    ∃ m us, busAccess (.memWrite a b) s = .next { s with mem := m, units := us } ∧ Memory.wf m = true ∧
      Memory.read m a = b ∧ (∀ x, x ≠ a → Memory.read m x = Memory.read s.mem x) ∧
      us.length = s.units.length ∧
      ∀ (k : Nat) (v : PkuUnit), s.units[k]? = some v →
        ∃ q, us[k]? = some { v with raced := q } ∧ (a ∉ v.span → q = v.raced) ∧
          (a ∈ v.span → ∀ x, x ∈ q ↔ x ∈ v.raced ∨ x = a)

/-- R51, R63 (b): a host read of a byte that no PACK in flight spans returns it; otherwise it returns any byte; memory and
units do not change. -/
def Obligations.HostMemoryRead : Prop :=
  ∀ (s : State) (a : Nat), a < 2 ^ s.addrw →
    ((∀ v ∈ s.units, a ∉ v.writeSpan) →
      busAccess (.memRead a) s = .next { s with rdMem := Memory.read s.mem a }) ∧
    ((∃ v ∈ s.units, a ∈ v.writeSpan) → ∃ x n, busAccess (.memRead a) s = .next { s with rdMem := x, draws := n })

/-! ## Whole-machine rules -/

/-- R62: the completion steps of two units whose spans share no byte commute. -/
def Obligations.DisjointUnitsCommute : Prop :=
  ∀ (s : State) (u v : Nat) (a b : PkuUnit) (rest : List Turn), Inv s → u ≠ v →
    s.units[u]? = some a → s.units[v]? = some b → a.status.busy = true → b.status.busy = true →
    a.raced = [] → b.raced = [] → (∀ x ∈ a.span, x ∉ b.span) →
      ∃ t t', Host.Core.run Sys2Proof.core 2 { s with schedule := .complete u :: .complete v :: rest } = .next t ∧
        Host.Core.run Sys2Proof.core 2 { s with schedule := .complete v :: .complete u :: rest } = .next t' ∧
        t' = { t with cur := t'.cur }

/-- The invariant holds at reset (R37, R250). -/
def Obligations.InvHoldsAtReset : Prop := Inv State.reset

/-- Every step keeps the invariant (R6, R25, R26, R50, R113, R226, R227, R228). -/
def Obligations.StepKeepsInv : Prop :=
  ∀ s t : State, Inv s → step s = .next t → Inv t

/-- R21, R250: no step changes a parameter: ADDRW, the number of units, or any unit's PTRW or REGBASE; so CFG is constant. -/
def Obligations.StepKeepsParameters : Prop :=
  ∀ s t : State, step s = .next t → t.addrw = s.addrw ∧ unitParams t.units = unitParams s.units

/-- R25: while a unit is busy, no step changes its OFF, BASE, LEN or CMD, nor its DATA but the completion step of an UNPACK;
only the unit's reset does otherwise (R250). -/
def Obligations.BusyUnitKeepsOperands : Prop :=
  ∀ (s t : State) (u : Nat) (r r' : PkuUnit), step s = .next t → s.units[u]? = some r → t.units[u]? = some r' →
    r.status.busy = true →
      r' = PkuUnit.ofReset r.ptrw r.regbase ∨
      (r'.off = r.off ∧ r'.base = r.base ∧ r'.len = r.len ∧ r'.cmd = r.cmd ∧
        (r'.data = r.data ∨
          (r'.status = finishedStatus r.status ∧ ∃ i, r.inFlight = some i ∧ i.op = .unpack)))

/-- R23, R229: an error bit that is set stays set through every step but two: the turn that resets the unit, and a host's word
write to the unit's STATUS (a scheduled access or a statement of the host's program) of a word that has the bit 1, which
changes nothing else of the unit but the other STATUS bits the word has 1. -/
def Obligations.ErrorBitsAreSticky : Prop :=
  ∀ (s t : State) (u : Nat) (r r' : PkuUnit) (f : FaultCode), step s = .next t → s.units[u]? = some r →
    t.units[u]? = some r' → r.status.toWord.getLsbD f.code = true → r'.status.toWord.getLsbD f.code = false →
      (nextTurn s = .reset u ∧ r' = PkuUnit.ofReset r.ptrw r.regbase) ∨
      ∃ w : Word, nextWrite? s = some (r.regbase + 0x08, w) ∧ w.getLsbD f.code = true ∧
        r' = { r with status := r.status.w1c w }

/-- R28 to R30: the unit never changes OFF, BASE or LEN: no completion step of any unit and no issue does. -/
def Obligations.CommandsKeepOperandRegisters : Prop :=
  ∀ (i : Instr) (s t : State), exec i s = .next t → t.units.length = s.units.length ∧
    ∀ (k : Nat) (v v' : PkuUnit), s.units[k]? = some v → t.units[k]? = some v' →
      v'.off = v.off ∧ v'.base = v.base ∧ v'.len = v.len ∧ (k ≠ s.cur → v'.data = v.data ∧ v'.status = v.status ∧
        v'.cmd = v.cmd)

/-- R112, R261 (the schedule of log 5): with nothing scheduled, every command in flight completes after as many steps as
there are busy units. -/
def Obligations.BusyUnitsComplete : Prop :=
  ∀ s : State, Inv s → s.schedule = [] →
    ∃ t, Host.Core.run Sys2Proof.core (numBusy s.units) s = .next t ∧ numBusy t.units = 0 ∧ t.schedule = []

/-! ## Host notation and composites -/

/-- R78: the statements of `setdata v`, run in the host's next four turns, leave `v`'s 128-bit pattern in DATA of an idle unit. -/
def Obligations.SetdataWritesData : Prop :=
  ∀ (s : State) (u : Nat) (r : PkuUnit) (v : Int) (tail : List HostStmt) (rest : List Turn), BlocksApart s.units →
    s.units[u]? = some r → r.status.busy = false → s.schedule = [.host, .host, .host, .host] ++ rest →
    s.host.prog.drop s.host.pos = stmtsSetdata u (.lit v) ++ tail →
      ∃ t, Host.Core.run Sys2Proof.core 4 s = .next t ∧
        t.units[u]? = some { r with data := BitVec.ofInt 128 v } ∧ t.mem = s.mem ∧ t.host.pos = s.host.pos + 4 ∧
        t.schedule = rest

/-- R78: the statements of `getdata -> name`, run in the host's next five turns, bind the name to DATA of an idle unit and
change no register. -/
def Obligations.GetdataReadsData : Prop :=
  ∀ (s : State) (u : Nat) (r : PkuUnit) (x : Nat) (tail : List HostStmt) (rest : List Turn), BlocksApart s.units →
    s.units[u]? = some r → r.status.busy = false → s.schedule = [.host, .host, .host, .host, .host] ++ rest →
    s.host.prog.drop s.host.pos = stmtsGetdata u (.name x) ++ tail →
      ∃ t, Host.Core.run Sys2Proof.core 5 s = .next t ∧ lookupVar t.host.vars (.name x) = some (r.data.toNat : Int) ∧
        t.units = s.units ∧ t.mem = s.mem ∧ t.host.pos = s.host.pos + 5 ∧ t.schedule = rest

/-- R77: `wait` repeats while STATUS reads BUSY = 1 and goes on when it reads 0. -/
def Obligations.WaitPollsBusy : Prop :=
  ∀ (s : State) (u : Nat) (r : PkuUnit) (rest : List Turn), BlocksApart s.units → s.units[u]? = some r →
    s.schedule = .host :: rest → s.host.prog[s.host.pos]? = some (.wait u) →
      step s = .next { s with
        schedule := rest, rdReg := r.status.toWord,
        host := { s.host with pos := if r.status.busy then s.host.pos else s.host.pos + 1 } }

/-- R201: the width of a composite: a primitive's is R100's, an array's n times its element's, a tuple's its head's plus its
tail's and so the sum of its members', and the empty tuple's 0. -/
def Obligations.CompositeWidthsAdd : Prop :=
  ∀ (p : PtrWidth) (tc : TypeCode) (t e : Ty) (ts : List Ty) (n : Nat),
    tyWidth p (.prim tc) = typeWidth p tc ∧ tyWidth p (.array e n) = n * tyWidth p e ∧
    tyWidth p (tupleOf (t :: ts)) = tyWidth p t + tyWidth p (tupleOf ts) ∧
    tyWidth p (tupleOf ts) = (ts.map (tyWidth p)).sum ∧ tyWidth p .unit = 0

/-- R202, R203, R205: the leaves of a composite at offset `o` carry its primitive types in declaration order, are contiguous in
that order, and are together exactly o .. o + WIDTH - 1. -/
def Obligations.CompositeLeavesTile : Prop :=
  ∀ (p : PtrWidth) (ty : Ty) (o : Nat),
    (tyLeaves p ty o).map Prod.snd = tyCodes ty ∧
    ((tyLeaves p ty o).map (fun l => typeWidth p l.2)).sum = tyWidth p ty ∧
    ∀ (k : Nat) (l : Nat × TypeCode), (tyLeaves p ty o)[k]? = some l →
      l.1 = o + (((tyLeaves p ty o).take k).map (fun l => typeWidth p l.2)).sum

/-- R200, R205, R206: the sequence of a composite with leaves is the host's capacity check and then one `pack` or `unpack` line
a leaf, in order, at the leaf's offset from `o`; the check goes to the label `fail` exactly if o + WIDTH > 8 * LEN; and if it
does not, every leaf passes the unit's capacity check. The form of the check as a jump is the model's choice (log 18). -/
def Obligations.CompositeCheckCoversLeaves : Prop :=
  ∀ (p : PtrWidth) (ty : Ty),
    (∀ o len : Nat, o + tyWidth p ty ≤ 8 * len → ∀ l ∈ tyLeaves p ty o, l.1 + typeWidth p l.2 ≤ 8 * len) ∧
    ∀ (u : Nat) (o len : Expr) (fail : Nat),
      let check : HostStmt := .ifGoto (.add o (.lit (tyWidth p ty))) .gt (.mul (.lit 8) len) fail
      (∀ vs : List Expr, tyLeaves p ty 0 ≠ [] → vs.length = (tyLeaves p ty 0).length →
        ∃ ls, packComposite p u ty o len fail vs = some (.prim check :: ls) ∧ ls.length = vs.length ∧
          ∀ (k : Nat) (l : Nat × TypeCode) (v : Expr), (tyLeaves p ty 0)[k]? = some l → vs[k]? = some v →
            ls[k]? = some (.pack u l.2 (.add o (.lit l.1)) v)) ∧
      (∀ xs : List Var, tyLeaves p ty 0 ≠ [] → xs.length = (tyLeaves p ty 0).length →
        ∃ ls, unpackComposite p u ty o len fail xs = some (.prim check :: ls) ∧ ls.length = xs.length ∧
          ∀ (k : Nat) (l : Nat × TypeCode) (x : Var), (tyLeaves p ty 0)[k]? = some l → xs[k]? = some x →
            ls[k]? = some (.unpack u l.2 (.add o (.lit l.1)) x)) ∧
      ∀ (s : State) (a b : Int) (k : Nat), evalExpr s.host.vars o = some a → evalExpr s.host.vars len = some b →
        s.host.prog.findIdx? (HostStmt.defines fail) = some k →
          runStmt check s = .next { s with
            host := { s.host with pos := if 8 * b < a + tyWidth p ty then k else s.host.pos + 1 } }

/-- R204: a composite of width 0 that is an empty tuple or an array of no elements issues no command. -/
def Obligations.EmptyCompositeIssuesNothing : Prop :=
  ∀ (p : PtrWidth) (u : Nat) (e : Ty) (o len : Expr) (fail : Nat),
    packComposite p u .unit o len fail [] = some [] ∧ packComposite p u (.array e 0) o len fail [] = some [] ∧
    unpackComposite p u .unit o len fail [] = some [] ∧ unpackComposite p u (.array e 0) o len fail [] = some []

/-- R207, R110: Inserts of fields at disjoint position ranges leave the same memory in any order. -/
def Obligations.LeafOrderDoesNotMatter : Prop :=
  ∀ (base : Nat) (m : Memory) (ls ls' : List LeafValue), Memory.wf m = true → ls.Pairwise Apart → ls.Perm ls' →
    insertLeaves base m ls = insertLeaves base m ls'
end

