-- ==== Sys2Proof/Laws/State.lean ====
section
/-! SUPPORT. One lemma per field per update of Status, PkuUnit and State, so that no later proof unfolds a record update. -/

namespace Sys2Proof.Machine

open Sys2Proof

/-! ## STATUS -/

@[simp] theorem status_clearDone_busy (st : Status) : (st.clearDone).busy = st.busy := rfl
@[simp] theorem status_clearDone_done (st : Status) : (st.clearDone).done = false := rfl
@[simp] theorem status_clearDone_ecap (st : Status) : (st.clearDone).ecap = st.ecap := rfl
@[simp] theorem status_clearDone_eill (st : Status) : (st.clearDone).eill = st.eill := rfl
@[simp] theorem status_clearDone_ewrap (st : Status) : (st.clearDone).ewrap = st.ewrap := rfl
@[simp] theorem status_clearDone_ebusy (st : Status) : (st.clearDone).ebusy = st.ebusy := rfl
@[simp] theorem status_accept_busy (st : Status) : (st.accept).busy = true := rfl
@[simp] theorem status_accept_done (st : Status) : (st.accept).done = st.done := rfl
@[simp] theorem status_accept_ecap (st : Status) : (st.accept).ecap = st.ecap := rfl
@[simp] theorem status_accept_eill (st : Status) : (st.accept).eill = st.eill := rfl
@[simp] theorem status_accept_ewrap (st : Status) : (st.accept).ewrap = st.ewrap := rfl
@[simp] theorem status_accept_ebusy (st : Status) : (st.accept).ebusy = st.ebusy := rfl
@[simp] theorem status_complete_busy (st : Status) : (st.complete).busy = false := rfl
@[simp] theorem status_complete_done (st : Status) : (st.complete).done = true := rfl
@[simp] theorem status_complete_ecap (st : Status) : (st.complete).ecap = st.ecap := rfl
@[simp] theorem status_complete_eill (st : Status) : (st.complete).eill = st.eill := rfl
@[simp] theorem status_complete_ewrap (st : Status) : (st.complete).ewrap = st.ewrap := rfl
@[simp] theorem status_complete_ebusy (st : Status) : (st.complete).ebusy = st.ebusy := rfl
@[simp] theorem status_w1c_busy (st : Status) (w : Word) : (st.w1c w).busy = st.busy := rfl
@[simp] theorem status_w1c_done (st : Status) (w : Word) : (st.w1c w).done = (st.done && !w.getLsbD 1) := rfl
@[simp] theorem status_w1c_ecap (st : Status) (w : Word) : (st.w1c w).ecap = (st.ecap && !w.getLsbD 2) := rfl
@[simp] theorem status_w1c_eill (st : Status) (w : Word) : (st.w1c w).eill = (st.eill && !w.getLsbD 3) := rfl
@[simp] theorem status_w1c_ewrap (st : Status) (w : Word) : (st.w1c w).ewrap = (st.ewrap && !w.getLsbD 4) := rfl
@[simp] theorem status_w1c_ebusy (st : Status) (w : Word) : (st.w1c w).ebusy = (st.ebusy && !w.getLsbD 5) := rfl
@[simp] theorem status_raise_ecap_busy (st : Status) : (st.raise .ecap).busy = st.busy := rfl
@[simp] theorem status_raise_ecap_done (st : Status) : (st.raise .ecap).done = st.done := rfl
@[simp] theorem status_raise_ecap_ecap (st : Status) : (st.raise .ecap).ecap = true := rfl
@[simp] theorem status_raise_ecap_eill (st : Status) : (st.raise .ecap).eill = st.eill := rfl
@[simp] theorem status_raise_ecap_ewrap (st : Status) : (st.raise .ecap).ewrap = st.ewrap := rfl
@[simp] theorem status_raise_ecap_ebusy (st : Status) : (st.raise .ecap).ebusy = st.ebusy := rfl
@[simp] theorem status_raise_eill_busy (st : Status) : (st.raise .eill).busy = st.busy := rfl
@[simp] theorem status_raise_eill_done (st : Status) : (st.raise .eill).done = st.done := rfl
@[simp] theorem status_raise_eill_ecap (st : Status) : (st.raise .eill).ecap = st.ecap := rfl
@[simp] theorem status_raise_eill_eill (st : Status) : (st.raise .eill).eill = true := rfl
@[simp] theorem status_raise_eill_ewrap (st : Status) : (st.raise .eill).ewrap = st.ewrap := rfl
@[simp] theorem status_raise_eill_ebusy (st : Status) : (st.raise .eill).ebusy = st.ebusy := rfl
@[simp] theorem status_raise_ewrap_busy (st : Status) : (st.raise .ewrap).busy = st.busy := rfl
@[simp] theorem status_raise_ewrap_done (st : Status) : (st.raise .ewrap).done = st.done := rfl
@[simp] theorem status_raise_ewrap_ecap (st : Status) : (st.raise .ewrap).ecap = st.ecap := rfl
@[simp] theorem status_raise_ewrap_eill (st : Status) : (st.raise .ewrap).eill = st.eill := rfl
@[simp] theorem status_raise_ewrap_ewrap (st : Status) : (st.raise .ewrap).ewrap = true := rfl
@[simp] theorem status_raise_ewrap_ebusy (st : Status) : (st.raise .ewrap).ebusy = st.ebusy := rfl
@[simp] theorem status_raise_ebusy_busy (st : Status) : (st.raise .ebusy).busy = st.busy := rfl
@[simp] theorem status_raise_ebusy_done (st : Status) : (st.raise .ebusy).done = st.done := rfl
@[simp] theorem status_raise_ebusy_ecap (st : Status) : (st.raise .ebusy).ecap = st.ecap := rfl
@[simp] theorem status_raise_ebusy_eill (st : Status) : (st.raise .ebusy).eill = st.eill := rfl
@[simp] theorem status_raise_ebusy_ewrap (st : Status) : (st.raise .ebusy).ewrap = st.ewrap := rfl
@[simp] theorem status_raise_ebusy_ebusy (st : Status) : (st.raise .ebusy).ebusy = true := rfl
@[simp] theorem status_raise_busy (st : Status) (f : FaultCode) : (st.raise f).busy = st.busy := by
  cases f <;> rfl

@[simp] theorem status_raise_done (st : Status) (f : FaultCode) : (st.raise f).done = st.done := by
  cases f <;> rfl

/-- Raising any fault halts the unit (R228). -/
@[simp] theorem status_raise_halted (st : Status) (f : FaultCode) : (st.raise f).halted = true := by
  cases f <;> simp [Status.halted]

@[simp] theorem status_clearDone_halted (st : Status) : st.clearDone.halted = st.halted := rfl

@[simp] theorem status_accept_halted (st : Status) : st.accept.halted = st.halted := rfl

@[simp] theorem status_complete_halted (st : Status) : st.complete.halted = st.halted := rfl

/-! ## Units -/

@[simp] theorem unit_raise_ptrw (r : PkuUnit) (f : FaultCode) : (r.raise f).ptrw = r.ptrw := rfl
@[simp] theorem unit_raise_regbase (r : PkuUnit) (f : FaultCode) : (r.raise f).regbase = r.regbase := rfl
@[simp] theorem unit_raise_cmd (r : PkuUnit) (f : FaultCode) : (r.raise f).cmd = r.cmd := rfl
@[simp] theorem unit_raise_status (r : PkuUnit) (f : FaultCode) : (r.raise f).status = r.status.raise f := rfl
@[simp] theorem unit_raise_off (r : PkuUnit) (f : FaultCode) : (r.raise f).off = r.off := rfl
@[simp] theorem unit_raise_base (r : PkuUnit) (f : FaultCode) : (r.raise f).base = r.base := rfl
@[simp] theorem unit_raise_len (r : PkuUnit) (f : FaultCode) : (r.raise f).len = r.len := rfl
@[simp] theorem unit_raise_data (r : PkuUnit) (f : FaultCode) : (r.raise f).data = r.data := rfl
@[simp] theorem unit_raise_raced (r : PkuUnit) (f : FaultCode) : (r.raise f).raced = r.raced := rfl
@[simp] theorem unit_store_ptrw (r : PkuUnit) (w : Word) : (r.store w).ptrw = r.ptrw := rfl
@[simp] theorem unit_store_regbase (r : PkuUnit) (w : Word) : (r.store w).regbase = r.regbase := rfl
@[simp] theorem unit_store_cmd (r : PkuUnit) (w : Word) : (r.store w).cmd = w := rfl
@[simp] theorem unit_store_status (r : PkuUnit) (w : Word) : (r.store w).status = r.status.clearDone := rfl
@[simp] theorem unit_store_off (r : PkuUnit) (w : Word) : (r.store w).off = r.off := rfl
@[simp] theorem unit_store_base (r : PkuUnit) (w : Word) : (r.store w).base = r.base := rfl
@[simp] theorem unit_store_len (r : PkuUnit) (w : Word) : (r.store w).len = r.len := rfl
@[simp] theorem unit_store_data (r : PkuUnit) (w : Word) : (r.store w).data = r.data := rfl
@[simp] theorem unit_store_raced (r : PkuUnit) (w : Word) : (r.store w).raced = r.raced := rfl
@[simp] theorem unit_accept_ptrw (r : PkuUnit) : r.accept.ptrw = r.ptrw := rfl
@[simp] theorem unit_accept_regbase (r : PkuUnit) : r.accept.regbase = r.regbase := rfl
@[simp] theorem unit_accept_cmd (r : PkuUnit) : r.accept.cmd = r.cmd := rfl
@[simp] theorem unit_accept_status (r : PkuUnit) : r.accept.status = r.status.accept := rfl
@[simp] theorem unit_accept_off (r : PkuUnit) : r.accept.off = r.off := rfl
@[simp] theorem unit_accept_base (r : PkuUnit) : r.accept.base = r.base := rfl
@[simp] theorem unit_accept_len (r : PkuUnit) : r.accept.len = r.len := rfl
@[simp] theorem unit_accept_data (r : PkuUnit) : r.accept.data = r.data := rfl
@[simp] theorem unit_accept_raced (r : PkuUnit) : r.accept.raced = [] := rfl
@[simp] theorem unit_finish_ptrw (r : PkuUnit) : (r.finish).ptrw = r.ptrw := rfl
@[simp] theorem unit_finish_regbase (r : PkuUnit) : (r.finish).regbase = r.regbase := rfl
@[simp] theorem unit_finish_cmd (r : PkuUnit) : (r.finish).cmd = r.cmd := rfl
@[simp] theorem unit_finish_status (r : PkuUnit) : (r.finish).status = r.status.complete := rfl
@[simp] theorem unit_finish_off (r : PkuUnit) : (r.finish).off = r.off := rfl
@[simp] theorem unit_finish_base (r : PkuUnit) : (r.finish).base = r.base := rfl
@[simp] theorem unit_finish_len (r : PkuUnit) : (r.finish).len = r.len := rfl
@[simp] theorem unit_finish_data (r : PkuUnit) : (r.finish).data = r.data := rfl
@[simp] theorem unit_finish_raced (r : PkuUnit) : (r.finish).raced = [] := rfl
@[simp] theorem unit_noteWrites_ptrw (r : PkuUnit) (ws : List Nat) : (r.noteWrites ws).ptrw = r.ptrw := rfl
@[simp] theorem unit_noteWrites_regbase (r : PkuUnit) (ws : List Nat) : (r.noteWrites ws).regbase = r.regbase := rfl
@[simp] theorem unit_noteWrites_cmd (r : PkuUnit) (ws : List Nat) : (r.noteWrites ws).cmd = r.cmd := rfl
@[simp] theorem unit_noteWrites_status (r : PkuUnit) (ws : List Nat) : (r.noteWrites ws).status = r.status := rfl
@[simp] theorem unit_noteWrites_off (r : PkuUnit) (ws : List Nat) : (r.noteWrites ws).off = r.off := rfl
@[simp] theorem unit_noteWrites_base (r : PkuUnit) (ws : List Nat) : (r.noteWrites ws).base = r.base := rfl
@[simp] theorem unit_noteWrites_len (r : PkuUnit) (ws : List Nat) : (r.noteWrites ws).len = r.len := rfl
@[simp] theorem unit_noteWrites_data (r : PkuUnit) (ws : List Nat) : (r.noteWrites ws).data = r.data := rfl
@[simp] theorem unit_noteWrites_raced (r : PkuUnit) (ws : List Nat) : (r.noteWrites ws).raced = r.raced ++ r.span.filter (fun a => ws.contains a && !r.raced.contains a) := rfl
@[simp] theorem unit_accepted_ptrw (r : PkuUnit) (w : Word) : (acceptedUnit w r).ptrw = r.ptrw := rfl
@[simp] theorem unit_accepted_regbase (r : PkuUnit) (w : Word) : (acceptedUnit w r).regbase = r.regbase := rfl
@[simp] theorem unit_accepted_cmd (r : PkuUnit) (w : Word) : (acceptedUnit w r).cmd = w := rfl
@[simp] theorem unit_accepted_status (r : PkuUnit) (w : Word) : (acceptedUnit w r).status = r.status.accept := rfl
@[simp] theorem unit_accepted_off (r : PkuUnit) (w : Word) : (acceptedUnit w r).off = r.off := rfl
@[simp] theorem unit_accepted_base (r : PkuUnit) (w : Word) : (acceptedUnit w r).base = r.base := rfl
@[simp] theorem unit_accepted_len (r : PkuUnit) (w : Word) : (acceptedUnit w r).len = r.len := rfl
@[simp] theorem unit_accepted_data (r : PkuUnit) (w : Word) : (acceptedUnit w r).data = r.data := rfl
@[simp] theorem unit_accepted_raced (r : PkuUnit) (w : Word) : (acceptedUnit w r).raced = r.raced := rfl

/-! ## The machine -/

@[simp] theorem state_putUnit_addrw (s : State) (k : Nat) (r : PkuUnit) : (s.putUnit k r).addrw = s.addrw := rfl
@[simp] theorem state_putUnit_mem (s : State) (k : Nat) (r : PkuUnit) : (s.putUnit k r).mem = s.mem := rfl
@[simp] theorem state_putUnit_units (s : State) (k : Nat) (r : PkuUnit) : (s.putUnit k r).units = s.units.set k r := rfl
@[simp] theorem state_putUnit_host (s : State) (k : Nat) (r : PkuUnit) : (s.putUnit k r).host = s.host := rfl
@[simp] theorem state_putUnit_rdReg (s : State) (k : Nat) (r : PkuUnit) : (s.putUnit k r).rdReg = s.rdReg := rfl
@[simp] theorem state_putUnit_rdMem (s : State) (k : Nat) (r : PkuUnit) : (s.putUnit k r).rdMem = s.rdMem := rfl
@[simp] theorem state_putUnit_cur (s : State) (k : Nat) (r : PkuUnit) : (s.putUnit k r).cur = s.cur := rfl
@[simp] theorem state_putUnit_schedule (s : State) (k : Nat) (r : PkuUnit) : (s.putUnit k r).schedule = s.schedule := rfl
@[simp] theorem state_putUnit_draws (s : State) (k : Nat) (r : PkuUnit) : (s.putUnit k r).draws = s.draws := rfl
@[simp] theorem state_setUnit_addrw (s : State) (r : PkuUnit) : (s.setUnit r).addrw = s.addrw := rfl
@[simp] theorem state_setUnit_mem (s : State) (r : PkuUnit) : (s.setUnit r).mem = s.mem := rfl
@[simp] theorem state_setUnit_units (s : State) (r : PkuUnit) : (s.setUnit r).units = s.units.set s.cur r := rfl
@[simp] theorem state_setUnit_host (s : State) (r : PkuUnit) : (s.setUnit r).host = s.host := rfl
@[simp] theorem state_setUnit_rdReg (s : State) (r : PkuUnit) : (s.setUnit r).rdReg = s.rdReg := rfl
@[simp] theorem state_setUnit_rdMem (s : State) (r : PkuUnit) : (s.setUnit r).rdMem = s.rdMem := rfl
@[simp] theorem state_setUnit_cur (s : State) (r : PkuUnit) : (s.setUnit r).cur = s.cur := rfl
@[simp] theorem state_setUnit_schedule (s : State) (r : PkuUnit) : (s.setUnit r).schedule = s.schedule := rfl
@[simp] theorem state_setUnit_draws (s : State) (r : PkuUnit) : (s.setUnit r).draws = s.draws := rfl
@[simp] theorem state_advanceHost_addrw (s : State) : (advanceHost s).addrw = s.addrw := rfl
@[simp] theorem state_advanceHost_mem (s : State) : (advanceHost s).mem = s.mem := rfl
@[simp] theorem state_advanceHost_units (s : State) : (advanceHost s).units = s.units := rfl
@[simp] theorem state_advanceHost_host (s : State) : (advanceHost s).host = { s.host with pos := s.host.pos + 1 } := rfl
@[simp] theorem state_advanceHost_rdReg (s : State) : (advanceHost s).rdReg = s.rdReg := rfl
@[simp] theorem state_advanceHost_rdMem (s : State) : (advanceHost s).rdMem = s.rdMem := rfl
@[simp] theorem state_advanceHost_cur (s : State) : (advanceHost s).cur = s.cur := rfl
@[simp] theorem state_advanceHost_schedule (s : State) : (advanceHost s).schedule = s.schedule := rfl
@[simp] theorem state_advanceHost_draws (s : State) : (advanceHost s).draws = s.draws := rfl
@[simp] theorem state_bindAdvance_addrw (s : State) (x : Var) (v : Int) : (bindAdvance x v s).addrw = s.addrw := rfl
@[simp] theorem state_bindAdvance_mem (s : State) (x : Var) (v : Int) : (bindAdvance x v s).mem = s.mem := rfl
@[simp] theorem state_bindAdvance_units (s : State) (x : Var) (v : Int) : (bindAdvance x v s).units = s.units := rfl
@[simp] theorem state_bindAdvance_host (s : State) (x : Var) (v : Int) : (bindAdvance x v s).host = { s.host with pos := s.host.pos + 1, vars := bindVar s.host.vars x v } := rfl
@[simp] theorem state_bindAdvance_rdReg (s : State) (x : Var) (v : Int) : (bindAdvance x v s).rdReg = s.rdReg := rfl
@[simp] theorem state_bindAdvance_rdMem (s : State) (x : Var) (v : Int) : (bindAdvance x v s).rdMem = s.rdMem := rfl
@[simp] theorem state_bindAdvance_cur (s : State) (x : Var) (v : Int) : (bindAdvance x v s).cur = s.cur := rfl
@[simp] theorem state_bindAdvance_schedule (s : State) (x : Var) (v : Int) : (bindAdvance x v s).schedule = s.schedule := rfl
@[simp] theorem state_bindAdvance_draws (s : State) (x : Var) (v : Int) : (bindAdvance x v s).draws = s.draws := rfl

theorem unit?_eq (s : State) : s.unit? = s.units[s.cur]? := rfl

theorem cur_lt_of_unit? {s : State} {r : PkuUnit} (h : s.unit? = some r) : s.cur < s.units.length := by
  rw [unit?_eq] at h
  exact (List.getElem?_eq_some_iff.mp h).1

/-- After putting a unit back, it is the unit in hand. -/
theorem setUnit_unit? {s : State} {r : PkuUnit} (h : s.unit? = some r) (r' : PkuUnit) :
    (s.setUnit r').unit? = some r' := by
  simp [unit?_eq, cur_lt_of_unit? h]

/-- Putting a unit back leaves every other unit alone. -/
theorem setUnit_other (s : State) (r : PkuUnit) {k : Nat} (h : k ≠ s.cur) : (s.setUnit r).units[k]? = s.units[k]? := by
  simp [List.getElem?_set_ne (Ne.symm h)]

end Sys2Proof.Machine
end

