-- ==== Sys2Proof/Laws/Memory.lean ====
section
/-! SUPPORT. Memory: read after write, the canonical form is kept, and equal reads of canonical memories are equal memories. -/

namespace Sys2Proof.Machine

open Sys2Proof

@[simp] theorem read_nil (x : Nat) : Memory.read [] x = unlisted := rfl

theorem wf_cons {a : Nat} {b : Byte} {m : Memory} :
    Memory.wf ((a, b) :: m) = true ↔ b ≠ unlisted ∧ (∀ c ∈ m, a < c.1) ∧ Memory.wf m = true := by
  simp [Memory.wf, and_assoc]

/-- An address below every listed one is unlisted. -/
theorem read_of_lt {m : Memory} {x : Nat} (h : ∀ c ∈ m, x < c.1) : Memory.read m x = unlisted := by
  induction m with
  | nil => rfl
  | cons c m ih =>
    obtain ⟨a, b⟩ := c
    have hx : x < a := h (a, b) (by simp)
    have hne : x ≠ a := by omega
    simp only [Memory.read, hne, if_false]
    exact ih (fun c hc => h c (by simp [hc]))

/-- A write never lists an address that was not listed, but the one written. -/
theorem mem_write {m : Memory} {x : Nat} {v : Byte} {c : Host.Cell} (h : c ∈ Memory.write m x v) :
    c ∈ m ∨ c = (x, v) := by
  induction m with
  | nil =>
    simp only [Memory.write] at h
    split at h <;> simp_all
  | cons d m ih =>
    obtain ⟨a, b⟩ := d
    simp only [Memory.write] at h
    split at h
    · split at h
      · exact .inl h
      · rcases List.mem_cons.mp h with h | h
        · exact .inr h
        · exact .inl h
    · split at h
      · split at h
        · exact .inl (by simp [h])
        · rcases List.mem_cons.mp h with h | h
          · exact .inr h
          · exact .inl (by simp [h])
      · rcases List.mem_cons.mp h with h | h
        · exact .inl (by simp [h])
        · rcases ih h with h | h
          · exact .inl (by simp [h])
          · exact .inr h

/-- Every write keeps the canonical form. -/
theorem write_wf {m : Memory} (h : Memory.wf m = true) (x : Nat) (v : Byte) : Memory.wf (Memory.write m x v) = true := by
  induction m with
  | nil =>
    simp only [Memory.write]
    split
    · rfl
    · simp_all [Memory.wf]
  | cons c m ih =>
    obtain ⟨a, b⟩ := c
    obtain ⟨hb, ha, hm⟩ := wf_cons.mp h
    simp only [Memory.write]
    split
    · rename_i hxa
      split
      · exact h
      · refine wf_cons.mpr ⟨by assumption, ?_, h⟩
        intro c hc
        rcases List.mem_cons.mp hc with rfl | hc
        · exact hxa
        · exact lt_trans hxa (ha c hc)
    · rename_i hxa
      split
      · rename_i he
        subst he
        split
        · exact hm
        · exact wf_cons.mpr ⟨by assumption, ha, hm⟩
      · rename_i he
        refine wf_cons.mpr ⟨hb, ?_, ih hm⟩
        intro c hc
        rcases mem_write hc with hc | rfl
        · exact ha c hc
        · show a < x
          omega

/-- A read after a write to the same address gives the value written (R51). -/
theorem read_write_same {m : Memory} (h : Memory.wf m = true) (x : Nat) (v : Byte) :
    Memory.read (Memory.write m x v) x = v := by
  induction m with
  | nil =>
    simp only [Memory.write]
    split <;> simp_all [Memory.read]
  | cons c m ih =>
    obtain ⟨a, b⟩ := c
    obtain ⟨hb, ha, hm⟩ := wf_cons.mp h
    simp only [Memory.write]
    split
    · rename_i hxa
      split
      · rename_i hv
        rw [hv]
        refine read_of_lt fun c hc => ?_
        rcases List.mem_cons.mp hc with rfl | hc
        · exact hxa
        · exact lt_trans hxa (ha c hc)
      · simp [Memory.read]
    · split
      · rename_i he
        subst he
        split
        · rename_i hv
          rw [hv]
          exact read_of_lt ha
        · simp [Memory.read]
      · rename_i he
        simp only [Memory.read, he, if_false]
        exact ih hm

/-- A write leaves every other address alone (R51). -/
theorem read_write_other {m : Memory} {x y : Nat} (hxy : y ≠ x) (v : Byte) :
    Memory.read (Memory.write m x v) y = Memory.read m y := by
  induction m with
  | nil =>
    simp only [Memory.write]
    split <;> simp [Memory.read, hxy]
  | cons c m ih =>
    obtain ⟨a, b⟩ := c
    simp only [Memory.write]
    split
    · split <;> simp [Memory.read, hxy]
    · split
      · rename_i he
        subst he
        split <;> simp [Memory.read, hxy]
      · simp only [Memory.read, ih]

theorem read_write {m : Memory} (h : Memory.wf m = true) (x y : Nat) (v : Byte) :
    Memory.read (Memory.write m x v) y = if y = x then v else Memory.read m y := by
  split
  · rename_i he
    rw [he, read_write_same h]
  · rename_i he
    exact read_write_other he v

/-- Canonical memories that read alike are equal. -/
theorem memory_ext {m m' : Memory} (h : Memory.wf m = true) (h' : Memory.wf m' = true)
    (hr : ∀ a, Memory.read m a = Memory.read m' a) : m = m' := by
  induction m generalizing m' with
  | nil =>
    cases m' with
    | nil => rfl
    | cons c m' =>
      obtain ⟨a, b⟩ := c
      have := hr a
      simp [Memory.read] at this
      exact absurd this.symm (wf_cons.mp h').1
  | cons c m ih =>
    obtain ⟨a, b⟩ := c
    obtain ⟨hb, ha, hm⟩ := wf_cons.mp h
    cases m' with
    | nil =>
      have := hr a
      simp [Memory.read] at this
      exact absurd this hb
    | cons c' m' =>
      obtain ⟨a', b'⟩ := c'
      obtain ⟨hb', ha', hm'⟩ := wf_cons.mp h'
      have hlow : ∀ {x y : Nat} {n : Memory}, x < y → (∀ c ∈ n, y < c.1) → Memory.read n x = unlisted :=
        fun hxy hn => read_of_lt fun c hc => lt_trans hxy (hn c hc)
      have haa : a = a' := by
        rcases Nat.lt_trichotomy a a' with hlt | heq | hgt
        · have h1 := hr a
          have hne : a ≠ a' := by omega
          simp only [Memory.read, if_true, hne, if_false, hlow hlt ha'] at h1
          exact absurd h1 hb
        · exact heq
        · have h1 := hr a'
          have hne : a' ≠ a := by omega
          simp only [Memory.read, if_true, hne, if_false, hlow hgt ha] at h1
          exact absurd h1.symm hb'
      subst haa
      have hbb : b = b' := by simpa [Memory.read] using hr a
      subst hbb
      rw [ih hm hm' fun x => ?_]
      by_cases hx : x = a
      · subst hx
        rw [read_of_lt ha, read_of_lt ha']
      · simpa [Memory.read, hx] using hr x

/-- A write inside `Mem` keeps every listed address inside `Mem`. -/
theorem write_bound {m : Memory} {n x : Nat} {v : Byte} (h : ∀ c ∈ m, c.1 < n) (hx : x < n) :
    ∀ c ∈ Memory.write m x v, c.1 < n := by
  intro c hc
  rcases mem_write hc with hc | rfl
  · exact h c hc
  · exact hx

end Sys2Proof.Machine
end

