-- ==== Sys2Proof/Laws/Kernel.lean ====
section
/-! SUPPORT. The field kernel by bits: what Extract reads and what Insert leaves, said once. -/

namespace Sys2Proof.Machine

open Sys2Proof

theorem byteOfBits_bits : ∀ b0 b1 b2 b3 b4 b5 b6 b7 : Bool,
    let x : Byte := BitVec.ofBool b0 ++ BitVec.ofBool b1 ++ BitVec.ofBool b2 ++ BitVec.ofBool b3 ++ BitVec.ofBool b4 ++
      BitVec.ofBool b5 ++ BitVec.ofBool b6 ++ BitVec.ofBool b7
    x.getLsbD 7 = b0 ∧ x.getLsbD 6 = b1 ∧ x.getLsbD 5 = b2 ∧ x.getLsbD 4 = b3 ∧ x.getLsbD 3 = b4 ∧
      x.getLsbD 2 = b5 ∧ x.getLsbD 1 = b6 ∧ x.getLsbD 0 = b7 := by
  decide +kernel

/-- Position `t` of a byte made of bits is numeric bit `7 - t` (R9). -/
theorem byteOfBits_getLsbD (f : Nat → Bool) {t : Nat} (ht : t < 8) : (byteOfBits f).getLsbD (7 - t) = f t := by
  obtain ⟨h0, h1, h2, h3, h4, h5, h6, h7⟩ := byteOfBits_bits (f 0) (f 1) (f 2) (f 3) (f 4) (f 5) (f 6) (f 7)
  have h : t = 0 ∨ t = 1 ∨ t = 2 ∨ t = 3 ∨ t = 4 ∨ t = 5 ∨ t = 6 ∨ t = 7 := by omega
  rcases h with rfl | rfl | rfl | rfl | rfl | rfl | rfl | rfl
  exacts [h0, h1, h2, h3, h4, h5, h6, h7]

/-- Two bytes with the same bit at every position are equal. -/
theorem byte_ext {x y : Byte} (h : ∀ t, t < 8 → x.getLsbD (7 - t) = y.getLsbD (7 - t)) : x = y := by
  apply BitVec.eq_of_getLsbD_eq
  intro i hi
  have := h (7 - i) (by omega)
  rwa [show 7 - (7 - i) = i by omega] at this

theorem mergeByte_getLsbD (old : Byte) (q o W v : Nat) {t : Nat} (ht : t < 8) :
    (mergeByte old q o W v).getLsbD (7 - t) =
      if o ≤ 8 * q + t ∧ 8 * q + t < o + W then v.testBit (W - 1 - (8 * q + t - o)) else old.getLsbD (7 - t) := by
  rw [mergeByte, byteOfBits_getLsbD _ ht]

/-! ## Extract (R103) -/

theorem extract_succ (m : Memory) (base o W : Nat) :
    extract m base o (W + 1) = Nat.bit (bufBit m base (o + W)) (extract m base o W) := by
  rw [Nat.bit_val, extract]

/-- Extract returns a W-bit value (R8). -/
theorem extract_lt (m : Memory) (base o W : Nat) : extract m base o W < 2 ^ W := by
  induction W with
  | zero => simp [extract]
  | succ W ih =>
    rw [extract, pow_succ]
    have := Bool.toNat_le (bufBit m base (o + W))
    omega

/-- Numeric bit `k` of Extract's value is the buffer bit at position `o + (W - 1 - k)` (R54, R103). -/
theorem extract_testBit (m : Memory) (base o W : Nat) {k : Nat} (hk : k < W) :
    (extract m base o W).testBit k = bufBit m base (o + (W - 1 - k)) := by
  induction W generalizing k with
  | zero => omega
  | succ W ih =>
    rw [extract_succ]
    cases k with
    | zero => rw [Nat.testBit_bit_zero]; simp
    | succ k =>
      rw [Nat.testBit_bit_succ, ih (by omega)]
      congr 2
      omega

theorem extract_testBit_ge (m : Memory) (base o W : Nat) {k : Nat} (hk : W ≤ k) :
    (extract m base o W).testBit k = false :=
  Nat.testBit_lt_two_pow (lt_of_lt_of_le (extract_lt m base o W) (Nat.pow_le_pow_right (by omega) hk))

/-- Extract depends only on the bits of the field (R103, R108). -/
theorem extract_congr {m m' : Memory} {base base' o o' W : Nat}
    (h : ∀ j, j < W → bufBit m base (o + j) = bufBit m' base' (o' + j)) :
    extract m base o W = extract m' base' o' W := by
  induction W with
  | zero => rfl
  | succ W ih => rw [extract, extract, ih (fun j hj => h j (by omega)), h W (by omega)]

/-! ## Insert (R104) -/

theorem insertLoop_wf {m : Memory} (h : Memory.wf m = true) (base o W v n : Nat) :
    Memory.wf (insertLoop m base o W v n) = true := by
  induction n with
  | zero => exact h
  | succ n ih => exact write_wf ih _ _

/-- After `n` bytes of the loop, each of them is merged and every other byte is as before. -/
theorem insertLoop_read {m : Memory} (h : Memory.wf m = true) (base o W v n a : Nat) :
    Memory.read (insertLoop m base o W v n) a =
      if base + o / 8 ≤ a ∧ a < base + o / 8 + n then mergeByte (Memory.read m a) (a - base) o W v
      else Memory.read m a := by
  induction n with
  | zero => simp [insertLoop]
  | succ n ih =>
    rw [insertLoop, read_write (insertLoop_wf h _ _ _ _ _), ih]
    by_cases ha : a = base + (o / 8 + n)
    · subst ha
      rw [if_pos rfl, if_pos (by omega), show base + (o / 8 + n) - base = o / 8 + n by omega]
    · rw [if_neg ha]
      by_cases hb : base + o / 8 ≤ a ∧ a < base + o / 8 + n
      · rw [if_pos hb, if_pos (by omega)]
      · rw [if_neg hb, if_neg (by omega)]

theorem insertField_wf {m : Memory} (h : Memory.wf m = true) (base o W v : Nat) :
    Memory.wf (insertField m base o W v) = true := insertLoop_wf h _ _ _ _ _

/-- Every byte after an Insert (R104). -/
theorem insertField_read {m : Memory} (h : Memory.wf m = true) (base o W v a : Nat) :
    Memory.read (insertField m base o W v) a =
      if base + o / 8 ≤ a ∧ a < base + o / 8 + spanBytes o W then mergeByte (Memory.read m a) (a - base) o W v
      else Memory.read m a := insertLoop_read h _ _ _ _ _ _

theorem mem_spanAddrs {base o W a : Nat} :
    a ∈ spanAddrs base o W ↔ base + o / 8 ≤ a ∧ a < base + o / 8 + spanBytes o W := by
  simp only [spanAddrs, List.mem_map, List.mem_range]
  constructor
  · rintro ⟨i, hi, rfl⟩
    omega
  · rintro ⟨h1, h2⟩
    exact ⟨a - (base + o / 8), by omega, by omega⟩

theorem spanAddrs_nodup (base o W : Nat) : (spanAddrs base o W).Nodup := by
  refine List.Nodup.map (fun i j hij => ?_) List.nodup_range
  simpa using hij

/-- Insert changes no byte outside its span (R104, R108). -/
theorem insertField_read_outside {m : Memory} (h : Memory.wf m = true) {base o W v a : Nat}
    (ha : a ∉ spanAddrs base o W) : Memory.read (insertField m base o W v) a = Memory.read m a := by
  rw [insertField_read h, if_neg (fun hc => ha (mem_spanAddrs.mpr hc))]

/-- Every buffer bit after an Insert: the field's bits are the value's, every other is as before (R104). -/
theorem bufBit_insertField {m : Memory} (h : Memory.wf m = true) (base o W v p : Nat) :
    bufBit (insertField m base o W v) base p =
      if o ≤ p ∧ p < o + W then v.testBit (W - 1 - (p - o)) else bufBit m base p := by
  unfold bufBit
  rw [insertField_read h]
  have hp : 8 * (p / 8) + p % 8 = p := by omega
  by_cases hs : base + o / 8 ≤ base + p / 8 ∧ base + p / 8 < base + o / 8 + spanBytes o W
  · rw [if_pos hs, mergeByte_getLsbD _ _ _ _ _ (by omega), show base + p / 8 - base = p / 8 by omega, hp]
  · rw [if_neg hs, if_neg]
    unfold spanBytes at hs
    omega

theorem insertLoop_bound {m : Memory} {N : Nat} (h : ∀ c ∈ m, c.1 < N) (base o W v n : Nat)
    (hn : base + o / 8 + n ≤ N) : ∀ c ∈ insertLoop m base o W v n, c.1 < N := by
  induction n with
  | zero => exact h
  | succ n ih => exact write_bound (ih (by omega)) (by omega)

/-- Extract of the field just inserted is the value (R109). -/
theorem extract_insertField_same {m : Memory} (h : Memory.wf m = true) (base o W v : Nat) :
    extract (insertField m base o W v) base o W = v % 2 ^ W := by
  apply Nat.eq_of_testBit_eq
  intro k
  rw [Nat.testBit_mod_two_pow]
  by_cases hk : k < W
  · rw [extract_testBit _ _ _ _ hk, bufBit_insertField h, if_pos (by omega)]
    simp only [hk, decide_true, Bool.true_and]
    congr 1
    omega
  · rw [extract_testBit_ge _ _ _ _ (by omega)]
    simp [hk]

/-- Extract of a field disjoint from the one inserted is as before (R108). -/
theorem extract_insertField_disjoint {m : Memory} (h : Memory.wf m = true) {base o W v o' W' : Nat}
    (hd : o' + W' ≤ o ∨ o + W ≤ o') :
    extract (insertField m base o W v) base o' W' = extract m base o' W' := by
  refine extract_congr fun j hj => ?_
  rw [bufBit_insertField h, if_neg (by omega)]

/-- Every address of an accepted command's span is inside the buffer, and so inside `Mem` (R113). -/
theorem span_le_of_capacity {off W len : Nat} (h : off + W ≤ 8 * len) :
    off / 8 + spanBytes off W ≤ len := by
  unfold spanBytes
  omega

theorem spanBytes_le_seventeen {o W : Nat} (h : W ≤ 128) : spanBytes o W ≤ 17 := by
  unfold spanBytes
  omega

/-- Insert changes no byte below the buffer. -/
theorem insertField_read_low {m : Memory} (h : Memory.wf m = true) {base o W v a : Nat} (ha : a < base) :
    Memory.read (insertField m base o W v) a = Memory.read m a := by
  rw [insertField_read h, if_neg (by omega)]

/-- Canonical memories that agree below the buffer and at every buffer position are equal. -/
theorem memory_ext_bits {m m' : Memory} (h : Memory.wf m = true) (h' : Memory.wf m' = true) (base : Nat)
    (hb : ∀ a, a < base → Memory.read m a = Memory.read m' a) (hp : ∀ p, bufBit m base p = bufBit m' base p) :
    m = m' := by
  refine memory_ext h h' fun a => ?_
  by_cases ha : a < base
  · exact hb a ha
  · refine byte_ext fun t ht => ?_
    have := hp (8 * (a - base) + t)
    unfold bufBit at this
    rwa [show (8 * (a - base) + t) / 8 = a - base by omega, show (8 * (a - base) + t) % 8 = t by omega,
      show base + (a - base) = a by omega] at this

/-- Extract reads the span only (R58, R103). -/
theorem extract_congr_span {m m' : Memory} {base o W : Nat}
    (h : ∀ a ∈ spanAddrs base o W, Memory.read m a = Memory.read m' a) :
    extract m base o W = extract m' base o W := by
  refine extract_congr fun j hj => ?_
  unfold bufBit
  rw [h]
  rw [mem_spanAddrs]
  unfold spanBytes
  omega

/-- A byte after an Insert depends on that byte before it only (R58). -/
theorem insertField_read_congr {m m' : Memory} (h : Memory.wf m = true) (h' : Memory.wf m' = true)
    {base o W v a : Nat} (he : Memory.read m a = Memory.read m' a) :
    Memory.read (insertField m base o W v) a = Memory.read (insertField m' base o W v) a := by
  rw [insertField_read h, insertField_read h', he]

end Sys2Proof.Machine
end

