-- ==== Sys2Proof/Laws/Operands.lean ====
section
/-! SUPPORT. Widths, and the bits of the value PACK takes and of the result UNPACK extends (R8, R31, R100). -/

namespace Sys2Proof.Machine

open Sys2Proof

theorem typeWidth_pos (p : PtrWidth) (tc : TypeCode) : 0 < typeWidth p tc := by
  cases tc <;> cases p <;> decide

theorem typeWidth_le (p : PtrWidth) (tc : TypeCode) : typeWidth p tc ≤ 128 := by
  cases tc <;> cases p <;> decide

theorem packValue_lt (d : Data) (W : Nat) : packValue d W < 2 ^ W := Nat.mod_lt _ (Nat.two_pow_pos W)

/-- The bits of PACK's value are the low bits of DATA (R31). -/
theorem packValue_testBit (d : Data) {W k : Nat} (hk : k < W) : (packValue d W).testBit k = d.getLsbD k := by
  rw [packValue, Nat.testBit_mod_two_pow]
  simp [hk, BitVec.getLsbD]

/-- The bits of a zero-extended W-bit value (R8). -/
theorem zext128_getLsbD {W u k : Nat} (hu : u < 2 ^ W) (hk : k < 128) :
    (zext128 W u).getLsbD k = if k < W then u.testBit k else false := by
  unfold zext128
  rw [BitVec.getLsbD_ofNat]
  simp only [hk, decide_true, Bool.true_and]
  split
  · rfl
  · exact Nat.testBit_lt_two_pow (lt_of_lt_of_le hu (Nat.pow_le_pow_right (by omega) (by omega)))

/-- The bits of a sign-extended W-bit value (R8). -/
theorem sext128_getLsbD {W u k : Nat} (hW : W ≤ 128) (hu : u < 2 ^ W) (hk : k < 128) :
    (sext128 W u).getLsbD k = if k < W then u.testBit k else u.testBit (W - 1) := by
  unfold sext128
  rw [BitVec.getLsbD_ofNat]
  simp only [hk, decide_true, Bool.true_and]
  by_cases hs : u.testBit (W - 1)
  · have h1 : u + 2 ^ 128 - 2 ^ W = 2 ^ W * (2 ^ (128 - W) - 1) + u := by
      have hp : 2 ^ 128 = 2 ^ W * 2 ^ (128 - W) := by
        rw [← pow_add]
        congr 1
        omega
      have h2 : 2 ^ W * 1 ≤ 2 ^ W * 2 ^ (128 - W) := Nat.mul_le_mul_left _ Nat.one_le_two_pow
      rw [hp, Nat.mul_sub]
      omega
    rw [if_pos hs, h1, Nat.testBit_two_pow_mul_add _ hu]
    split
    · rfl
    · rw [Nat.testBit_two_pow_sub_one, hs]
      simp
      omega
  · rw [if_neg hs]
    split
    · rfl
    · simp only [Bool.not_eq_true] at hs
      rw [hs, Nat.testBit_lt_two_pow (lt_of_lt_of_le hu (Nat.pow_le_pow_right (by omega) (by omega)))]

/-- The bits of UNPACK's result: the value's own, then zero, or the sign for a signed type (R31, R112). -/
theorem typeExtend_getLsbD {tc : TypeCode} {W u k : Nat} (hW : W ≤ 128) (hu : u < 2 ^ W) (hk : k < 128) :
    (typeExtend tc W u).getLsbD k = if k < W then u.testBit k else tc.isSigned && u.testBit (W - 1) := by
  unfold typeExtend
  split
  · rename_i h
    rw [sext128_getLsbD hW hu hk, h, Bool.true_and]
  · rename_i h
    rw [Bool.not_eq_true] at h
    rw [zext128_getLsbD hu hk, h, Bool.false_and]

end Sys2Proof.Machine
end

