-- ==== Sys2Proof/Laws/Ops.lean ====
section
/-! SUPPORT. What the shared operations can do, said once: one equation for exec over all commands, the fields of a state
after issue and after completion, and the memory after a race or an abandoned PACK. -/

namespace Sys2Proof.Machine

open Sys2Proof

/-- Every meaning is the shared UNPACK or PACK at the width and extension of its type code (R100, R112). -/
theorem exec_eq (i : Instr) (s : State) :
    exec i s =
      match i.op with
      | .unpack => unpackCommand i (fun p => typeWidth p i.typeCode) (typeExtend i.typeCode) s
      | .pack => packCommand i (fun p => typeWidth p i.typeCode) s := by
  cases i <;> rfl

theorem exec_no_unit (i : Instr) {s : State} (h : s.unit? = none) : exec i s = .fault .noSuchUnit := by
  rw [exec_eq]
  cases i.op <;> simp [unpackCommand, packCommand, h]

/-- A command on a unit that is not busy is its issue. -/
theorem exec_idle (i : Instr) {s : State} {r : PkuUnit} (h : s.unit? = some r) (hb : r.status.busy = false) :
    exec i s = .next (issueCommand i (typeWidth r.ptrw i.typeCode) s r) := by
  rw [exec_eq]
  cases i.op <;> simp [unpackCommand, packCommand, h, hb]

/-- An UNPACK on a busy unit is its completion step. -/
theorem exec_busy_unpack {i : Instr} (hi : i.op = .unpack) {s : State} {r : PkuUnit} (h : s.unit? = some r)
    (hb : r.status.busy = true) :
    exec i s = completeUnpack (typeWidth r.ptrw i.typeCode) (typeExtend i.typeCode) s r := by
  rw [exec_eq, hi]
  simp [unpackCommand, h, hb]

/-- A PACK on a busy unit is its completion step. -/
theorem exec_busy_pack {i : Instr} (hi : i.op = .pack) {s : State} {r : PkuUnit} (h : s.unit? = some r)
    (hb : r.status.busy = true) : exec i s = completePack (typeWidth r.ptrw i.typeCode) s r := by
  rw [exec_eq, hi]
  simp [packCommand, h, hb]

/-! ## Races -/

theorem noteWrites_of_idle {r : PkuUnit} (h : r.status.busy = false) (ws : List Nat) : r.noteWrites ws = r := by
  simp [PkuUnit.noteWrites, PkuUnit.span, PkuUnit.inFlight, h]

/-- The span of the command in flight depends on CMD, BUSY, PTRW, OFF and BASE only. -/
theorem span_noteWrites (r : PkuUnit) (ws : List Nat) : (r.noteWrites ws).span = r.span := rfl

theorem writeSpan_noteWrites (r : PkuUnit) (ws : List Nat) : (r.noteWrites ws).writeSpan = r.writeSpan := rfl

theorem inFlight_noteWrites (r : PkuUnit) (ws : List Nat) : (r.noteWrites ws).inFlight = r.inFlight := rfl

/-- Only bytes of the span are noted as raced. -/
theorem mem_raced_noteWrites {r : PkuUnit} {ws : List Nat} {a : Nat} :
    a ∈ (r.noteWrites ws).raced ↔ a ∈ r.raced ∨ (a ∈ r.span ∧ a ∈ ws) := by
  simp only [unit_noteWrites_raced, List.mem_append, List.mem_filter, List.contains_iff_mem, Bool.and_eq_true,
    Bool.not_eq_true']
  by_cases h : a ∈ r.raced <;> simp [h]

theorem raced_noteWrites_nodup {r : PkuUnit} (h : r.raced.Nodup) (hs : r.span.Nodup) (ws : List Nat) :
    (r.noteWrites ws).raced.Nodup := by
  rw [unit_noteWrites_raced, List.nodup_append]
  refine ⟨h, hs.filter _, ?_⟩
  intro a ha b hb hab
  subst hab
  simp [ha] at hb

theorem span_nodup (r : PkuUnit) : r.span.Nodup := by
  unfold PkuUnit.span
  split
  · exact spanAddrs_nodup _ _ _
  · exact List.nodup_nil

@[simp] theorem noteOthers_length (k : Nat) (ws : List Nat) (us : List PkuUnit) :
    (noteOthers k ws us).length = us.length := by
  simp [noteOthers]

theorem noteOthers_getElem? (k : Nat) (ws : List Nat) (us : List PkuUnit) (j : Nat) :
    (noteOthers k ws us)[j]? = us[j]?.map (fun v => if j = k then v else v.noteWrites ws) := by
  simp [noteOthers]

/-- A noted unit differs from the unit before in `raced` only. -/
theorem noteOthers_unit {k j : Nat} {ws : List Nat} {us : List PkuUnit} {v : PkuUnit}
    (h : (noteOthers k ws us)[j]? = some v) :
    ∃ w, us[j]? = some w ∧ v = if j = k then w else w.noteWrites ws := by
  rw [noteOthers_getElem?] at h
  obtain ⟨w, hw, rfl⟩ := Option.map_eq_some_iff.mp h
  exact ⟨w, hw, rfl⟩

theorem racedSpan_nil (span : List Nat) : racedSpan [] span = [] := by
  simp [racedSpan]

theorem mem_racedSpan {raced span : List Nat} {a : Nat} : a ∈ racedSpan raced span ↔ a ∈ span ∧ a ∈ raced := by
  simp [racedSpan]

theorem inFlight_idle {r : PkuUnit} (h : r.status.busy = false) : r.inFlight = none := by
  simp [PkuUnit.inFlight, h]

theorem span_idle {r : PkuUnit} (h : r.status.busy = false) : r.span = [] := by
  simp [PkuUnit.span, inFlight_idle h]

theorem span_of_inFlight {r : PkuUnit} {i : Instr} (h : r.inFlight = some i) :
    r.span = spanAddrs r.base.toNat r.off.toNat (typeWidth r.ptrw i.typeCode) := by
  simp [PkuUnit.span, h]

theorem writeSpan_of_pack {r : PkuUnit} {i : Instr} (h : r.inFlight = some i) (hi : i.op = .pack) :
    r.writeSpan = r.span := by
  simp [PkuUnit.writeSpan, h, hi]

/-- Only a PACK writes (R58). -/
theorem writeSpan_of_unpack {r : PkuUnit} (h : ∀ j, r.inFlight = some j → j.op = .unpack) : r.writeSpan = [] := by
  unfold PkuUnit.writeSpan
  split
  · rename_i i hi
    simp [h i hi]
  · rfl

@[simp] theorem noteWrites_nil (r : PkuUnit) : r.noteWrites [] = r := by
  simp [PkuUnit.noteWrites]

/-- Writes outside the span are no race (R63). -/
theorem noteWrites_outside {r : PkuUnit} {ws : List Nat} (h : ∀ a ∈ r.span, a ∉ ws) : r.noteWrites ws = r := by
  unfold PkuUnit.noteWrites
  rw [List.filter_eq_nil_iff.mpr]
  · simp
  · intro a ha
    simp [h a ha]

@[simp] theorem noteOthers_nil (k : Nat) (us : List PkuUnit) : noteOthers k [] us = us := by
  apply List.ext_getElem?
  intro j
  rw [noteOthers_getElem?]
  simp

theorem mem_otherWrites {k : Nat} {us : List PkuUnit} {a : Nat} :
    a ∈ otherWrites k us ↔ ∃ j v, j ≠ k ∧ us[j]? = some v ∧ a ∈ PkuUnit.writeSpan v := by
  unfold otherWrites
  simp only [List.mem_flatten, List.mem_mapIdx]
  constructor
  · rintro ⟨l, ⟨i, hi, rfl⟩, ha⟩
    split at ha
    · simp at ha
    · rename_i hne
      exact ⟨i, us[i], hne, by simp [hi], ha⟩
  · rintro ⟨j, v, hne, hv, ha⟩
    obtain ⟨hlt, rfl⟩ := List.getElem?_eq_some_iff.mp hv
    exact ⟨_, ⟨j, hlt, rfl⟩, by simp [hne, ha]⟩

theorem otherWrites_eq_nil {k : Nat} {us : List PkuUnit} (h : ∀ v ∈ us, PkuUnit.writeSpan v = []) :
    otherWrites k us = [] := by
  rw [List.eq_nil_iff_forall_not_mem]
  intro a ha
  obtain ⟨j, v, _, hv, hm⟩ := mem_otherWrites.mp ha
  rw [h v (List.mem_of_getElem? hv)] at hm
  simp at hm

/-! ## Memory after a race, and after an abandoned PACK -/

theorem scramble_wf {m : Memory} (h : Memory.wf m = true) (as : List Nat) (n : Nat) :
    Memory.wf (scramble m as n) = true := by
  induction as generalizing m n with
  | nil => exact h
  | cons a as ih => exact ih (write_wf h _ _) _

theorem scramble_read_other {m : Memory} {as : List Nat} {a : Nat} (h : a ∉ as) (n : Nat) :
    Memory.read (scramble m as n) a = Memory.read m a := by
  induction as generalizing m n with
  | nil => rfl
  | cons b as ih =>
    simp only [List.mem_cons, not_or] at h
    rw [scramble, ih h.2, read_write_other h.1]

theorem scramble_bound {m : Memory} {N : Nat} (h : ∀ c ∈ m, c.1 < N) {as : List Nat} (ha : ∀ a ∈ as, a < N) (n : Nat) :
    ∀ c ∈ scramble m as n, c.1 < N := by
  induction as generalizing m n with
  | nil => exact h
  | cons a as ih => exact ih (write_bound h (ha a (by simp))) (fun b hb => ha b (by simp [hb])) _

theorem tear_wf {new m : Memory} (h : Memory.wf m = true) (raced as : List Nat) (n : Nat) :
    Memory.wf (tear new raced m as n) = true := by
  induction as generalizing m n with
  | nil => exact h
  | cons a as ih =>
    rw [tear]
    refine ih ?_ _
    split
    · exact write_wf h _ _
    · split
      · exact write_wf h _ _
      · exact h

theorem tear_read_other {new m : Memory} {raced as : List Nat} {a : Nat} (h : a ∉ as) (n : Nat) :
    Memory.read (tear new raced m as n) a = Memory.read m a := by
  induction as generalizing m n with
  | nil => rfl
  | cons b as ih =>
    simp only [List.mem_cons, not_or] at h
    rw [tear, ih h.2]
    split
    · exact read_write_other h.1 _
    · split
      · exact read_write_other h.1 _
      · rfl

theorem tear_bound {new m : Memory} {N : Nat} (h : ∀ c ∈ m, c.1 < N) (raced : List Nat) {as : List Nat}
    (ha : ∀ a ∈ as, a < N) (n : Nat) : ∀ c ∈ tear new raced m as n, c.1 < N := by
  induction as generalizing m n with
  | nil => exact h
  | cons a as ih =>
    rw [tear]
    refine ih ?_ (fun b hb => ha b (by simp [hb])) _
    split
    · exact write_bound h (ha a (by simp))
    · split
      · exact write_bound h (ha a (by simp))
      · exact h

/-! ## Completion (R112) -/

/-- The completion step of an UNPACK that met no race. -/
theorem completeUnpack_quiet {W : Nat} {ext : Nat → Nat → Data} {s : State} {r : PkuUnit}
    (hm : spanInMem s.addrw r.base.toNat r.off.toNat W = true) (hr : r.raced = []) :
    completeUnpack W ext s r =
      .next (s.setUnit { r with
        data := ext W (extract s.mem r.base.toNat r.off.toNat W), status := r.status.complete }) := by
  rw [completeUnpack, if_pos hm, hr, racedSpan_nil, if_pos rfl]
  rfl

/-- The completion step of a PACK that met no race. -/
theorem completePack_quiet {W : Nat} {s : State} {r : PkuUnit}
    (hm : spanInMem s.addrw r.base.toNat r.off.toNat W = true) (hr : r.raced = []) :
    completePack W s r =
      .next { s.setUnit { r with status := r.status.complete } with
        mem := insertField s.mem r.base.toNat r.off.toNat W (packValue r.data W) } := by
  rw [completePack, if_pos hm, PkuUnit.finish, hr, racedSpan_nil]
  rfl

/-- Any completion step of an UNPACK that answers a next state: DATA is written, memory is not. -/
theorem completeUnpack_next {W : Nat} {ext : Nat → Nat → Data} {s t : State} {r : PkuUnit}
    (h : completeUnpack W ext s r = .next t) :
    spanInMem s.addrw r.base.toNat r.off.toNat W = true ∧
      ∃ d n, t = { s.setUnit ({ r with data := d } : PkuUnit).finish with draws := n } := by
  unfold completeUnpack at h
  split at h
  · refine ⟨by assumption, ?_⟩
    split at h
    · cases h
      exact ⟨_, _, rfl⟩
    · cases h
      exact ⟨_, _, rfl⟩
  · cases h

/-- Any completion step of a PACK that answers a next state: the memory is Insert's, but for raced bytes. -/
theorem completePack_next {W : Nat} {s t : State} {r : PkuUnit} (h : completePack W s r = .next t) :
    spanInMem s.addrw r.base.toNat r.off.toNat W = true ∧
      ∃ n, t = { s.setUnit r.finish with
        mem := scramble (insertField s.mem r.base.toNat r.off.toNat W (packValue r.data W))
          (racedSpan r.raced (spanAddrs r.base.toNat r.off.toNat W)) s.draws
        draws := n } := by
  unfold completePack at h
  split at h
  · cases h
    exact ⟨by assumption, _, rfl⟩
  · cases h

/-! ## Issue (R111) -/

theorem capacityOk_iff {off len : DWord} {W : Nat} : capacityOk off len W = true ↔ off.toNat + W ≤ 8 * len.toNat := by
  simp only [capacityOk, decide_eq_true_eq]

theorem capacityOk_false {off len : DWord} {W : Nat} (h : 8 * len.toNat < off.toNat + W) :
    capacityOk off len W = false := by
  rw [Bool.eq_false_iff, ne_eq, capacityOk_iff]
  omega

theorem windowOk_iff {addrw : Nat} {base len : DWord} :
    windowOk addrw base len = true ↔ base.toNat + len.toNat ≤ 2 ^ addrw := by
  exact decide_eq_true_iff

theorem windowOk_false {addrw : Nat} {base len : DWord} (h : 2 ^ addrw < base.toNat + len.toNat) :
    windowOk addrw base len = false := by
  rw [Bool.eq_false_iff, ne_eq, windowOk_iff]
  omega

theorem spanInMem_iff {addrw base o W : Nat} :
    spanInMem addrw base o W = true ↔ base + o / 8 + spanBytes o W ≤ 2 ^ addrw := by
  exact decide_eq_true_iff

theorem issueCommand_capacity {i : Instr} {W : Nat} {s : State} {r : PkuUnit} (h : capacityOk r.off r.len W = false) :
    issueCommand i W s r = s.setUnit ((r.store (encode i)).raise .ecap) := by
  simp [issueCommand, h]

theorem issueCommand_window {i : Instr} {W : Nat} {s : State} {r : PkuUnit} (h : capacityOk r.off r.len W = true)
    (hw : windowOk s.addrw r.base r.len = false) :
    issueCommand i W s r = s.setUnit ((r.store (encode i)).raise .ewrap) := by
  simp [issueCommand, h, hw]

theorem issueCommand_accept {i : Instr} {W : Nat} {s : State} {r : PkuUnit} (h : capacityOk r.off r.len W = true)
    (hw : windowOk s.addrw r.base r.len = true) : issueCommand i W s r = acceptCommand s (r.store (encode i)) := by
  simp [issueCommand, h, hw]

/-- An accepted command's span is inside `Mem` (R113). -/
theorem spanInMem_of_accepted {addrw : Nat} {base off len : DWord} {W : Nat} (h : capacityOk off len W = true)
    (hw : windowOk addrw base len = true) : spanInMem addrw base.toNat off.toNat W = true := by
  simp only [capacityOk, windowOk, spanInMem, decide_eq_true_eq] at *
  have := span_le_of_capacity h
  omega

theorem lt_of_mem_span {addrw base o W a : Nat} (h : spanInMem addrw base o W = true) (ha : a ∈ spanAddrs base o W) :
    a < memBytes addrw := by
  simp only [spanInMem, decide_eq_true_eq] at h
  obtain ⟨_, h2⟩ := mem_spanAddrs.mp ha
  omega

/-- The decoder reads back the word of every command (R74). -/
theorem decode?_encode (i : Instr) : decode? (encode i) = some i := by
  cases i <;> rfl

theorem decode?_eq_some {w : Word} {i : Instr} : decode? w = some i ↔ decode w = .ok i := by
  unfold decode?
  split <;> simp_all

/-- The accepted command is the one in flight. -/
theorem inFlight_accept (r : PkuUnit) (i : Instr) : (r.store (encode i)).accept.inFlight = some i := by
  simp [PkuUnit.inFlight, decode?_encode]

/-- The unit in hand after its command is accepted. -/
theorem acceptCommand_unit {s : State} (h : s.cur < s.units.length) (r : PkuUnit) :
    (acceptCommand s r).units[s.cur]? = some (r.accept.noteWrites (otherWrites s.cur s.units)) := by
  rw [acceptCommand, noteOthers_getElem?]
  simp [h]

/-- The other units after a command is accepted: the PACK's span is noted where it overlaps. -/
theorem acceptCommand_other (s : State) (r : PkuUnit) {k : Nat} (h : k ≠ s.cur) :
    (acceptCommand s r).units[k]? = s.units[k]?.map (fun v => v.noteWrites r.accept.writeSpan) := by
  simp [acceptCommand, noteOthers_getElem?, List.getElem?_set_ne (Ne.symm h), h]

/-- Only bytes of the span are written (R58). -/
theorem writeSpan_subset {r : PkuUnit} {a : Nat} (h : a ∈ r.writeSpan) : a ∈ r.span := by
  unfold PkuUnit.writeSpan at h
  split at h
  · split at h
    · exact h
    · cases h
  · cases h

/-- What a command just accepted writes: its span, if it is a PACK (R58). -/
theorem mem_writeSpan_accept {r : PkuUnit} {i : Instr} {a : Nat} :
    a ∈ (r.store (encode i)).accept.writeSpan ↔
      i.op = .pack ∧ a ∈ spanAddrs r.base.toNat r.off.toNat (typeWidth r.ptrw i.typeCode) := by
  simp only [PkuUnit.writeSpan, inFlight_accept]
  split
  · rename_i h
    rw [span_of_inFlight (inFlight_accept r i)]
    simp [h]
  · rename_i h
    simp [h]

theorem writeSpan_idle {r : PkuUnit} (h : r.status.busy = false) : r.writeSpan = [] :=
  writeSpan_of_unpack (by
    rw [inFlight_idle h]
    intro j hj
    cases hj)

/-- With no byte both spanned here and there that either side writes, accepting a command changes the unit in hand only (R62,
R64). -/
theorem acceptCommand_apart {s : State} {r : PkuUnit}
    (h : ∀ (k : Nat) (v : PkuUnit), k ≠ s.cur → s.units[k]? = some v →
      (∀ a ∈ r.accept.span, a ∉ v.writeSpan) ∧ ∀ a ∈ v.span, a ∉ r.accept.writeSpan) :
    acceptCommand s r = s.setUnit r.accept := by
  have h1 : r.accept.noteWrites (otherWrites s.cur s.units) = r.accept := noteWrites_outside fun a ha hm => by
    obtain ⟨k, v, hk, hv, hw⟩ := mem_otherWrites.mp hm
    exact (h k v hk hv).1 a ha hw
  have h2 : noteOthers s.cur r.accept.writeSpan (s.units.set s.cur r.accept) = s.units.set s.cur r.accept := by
    apply List.ext_getElem?
    intro j
    rw [noteOthers_getElem?]
    by_cases hj : j = s.cur
    · simp [hj]
    · rw [List.getElem?_set_ne (Ne.symm hj)]
      cases hv : s.units[j]? with
      | none => rfl
      | some v => simp [hj, noteWrites_outside (h j v hj hv).2]
  simp only [acceptCommand, h1, h2]
  rfl

/-- With no other unit busy, accepting a command changes the unit in hand only. -/
theorem acceptCommand_alone {s : State} {r : PkuUnit} (h : ∀ v ∈ s.units, v.status.busy = false) :
    acceptCommand s r = s.setUnit r.accept :=
  acceptCommand_apart fun k v _ hv => by
    have hb := h v (List.mem_of_getElem? hv)
    simp [writeSpan_idle hb, span_idle hb]

/-- A byte of an abandoned PACK's span that no other agent wrote is the old one or the new one (R251). -/
theorem tear_read {new m : Memory} (hw : Memory.wf m = true) {raced as : List Nat} {a : Nat} (hn : as.Nodup)
    (ha : a ∈ as) (hr : a ∉ raced) (n : Nat) :
    Memory.read (tear new raced m as n) a = Memory.read m a ∨
      Memory.read (tear new raced m as n) a = Memory.read new a := by
  induction as generalizing m n with
  | nil => simp at ha
  | cons b as ih =>
    rw [tear]
    rw [List.nodup_cons] at hn
    by_cases hab : a = b
    · subst hab
      rw [tear_read_other hn.1]
      simp only [List.contains_iff_mem, hr, if_false]
      split
      · exact .inr (read_write_same hw _ _)
      · exact .inl rfl
    · have ha' : a ∈ as := by simpa [hab] using ha
      have key : ∀ m', Memory.wf m' = true → Memory.read m' a = Memory.read m a →
          Memory.read (tear new raced m' as (n + 1)) a = Memory.read m a ∨
            Memory.read (tear new raced m' as (n + 1)) a = Memory.read new a := by
        intro m' hw' he
        have := ih hw' hn.2 ha' (n + 1)
        rwa [he] at this
      apply key
      · split
        · exact write_wf hw _ _
        · split
          · exact write_wf hw _ _
          · exact hw
      · split
        · exact read_write_other hab _
        · split
          · exact read_write_other hab _
          · rfl

end Sys2Proof.Machine
end

