-- ==== Sys2Proof/Laws/Bus.lean ====
section
/-! SUPPORT. Host accesses: which register an address reaches (R20, R233), and what an access to it does. -/

namespace Sys2Proof.Machine

open Sys2Proof

theorem regAt_regOffset (reg : Reg) : regAt (regOffset reg) = some reg := by
  cases reg <;> rfl

theorem regOffset_lt (reg : Reg) : regOffset reg < 64 := by
  cases reg <;> decide

/-- A host address in a unit's block reaches that unit, when the blocks lie apart (R6, R233). -/
theorem unitAt_of_apart {us : List PkuUnit} (h : BlocksApart us) {u : Nat} {r : PkuUnit} (hu : us[u]? = some r)
    {o : Nat} (ho : o < 64) : unitAt us (r.regbase + o) = some u := by
  obtain ⟨hlt, hr⟩ := List.getElem?_eq_some_iff.mp hu
  rw [unitAt, List.findIdx?_eq_some_iff_getElem]
  refine ⟨hlt, by simp [hr]; omega, ?_⟩
  intro j hj hc
  simp only [Bool.and_eq_true, decide_eq_true_eq] at hc
  have hj' : j < us.length := by omega
  have h1 := h.1 us[j] (List.getElem_mem _)
  have h2 := h.1 r (hr ▸ List.getElem_mem _)
  have heq : us[j].regbase = us[u].regbase := by
    rw [hr]
    omega
  have := (List.Nodup.getElem_inj_iff h.2 (i := j) (j := u) (hi := by simpa using hj')
    (hj := by simpa using hlt)).mp (by simpa using heq)
  omega

/-- STATUS is at offset 8 and nowhere else (R20). -/
theorem regAt_status {o : Nat} (h : regAt o = some .status) : o = 8 := by
  unfold regAt at h
  split at h
  · rename_i h4
    have : o / 4 = 2 := by
      have hlt : o / 4 < 16 := by
        by_contra hc
        rw [List.getElem?_eq_none (by simp [allRegs]; omega)] at h
        cases h
      generalize o / 4 = n at *
      interval_cases n <;> simp_all [allRegs]
    omega
  · cases h

/-- An address reaches a unit only from its REGBASE on. -/
theorem unitAt_le {us : List PkuUnit} {a u : Nat} {r : PkuUnit} (h : unitAt us a = some u) (hr : us[u]? = some r) :
    r.regbase ≤ a := by
  rw [unitAt, List.findIdx?_eq_some_iff_getElem] at h
  obtain ⟨hlt, h1, _⟩ := h
  obtain ⟨_, rfl⟩ := List.getElem?_eq_some_iff.mp hr
  simp at h1
  exact h1.1

theorem busAccess_regWrite {s : State} (h : BlocksApart s.units) {u : Nat} {r : PkuUnit} (hu : s.units[u]? = some r)
    (reg : Reg) (w : Word) : busAccess (.regWrite (r.regbase + regOffset reg) .word w) s = writeReg u reg w s := by
  simp [busAccess, unitAt_of_apart h hu (regOffset_lt reg), hu, regAt_regOffset]

theorem busAccess_regRead {s : State} (h : BlocksApart s.units) {u : Nat} {r : PkuUnit} (hu : s.units[u]? = some r)
    (reg : Reg) : busAccess (.regRead (r.regbase + regOffset reg) .word) s = readReg u reg s := by
  simp [busAccess, unitAt_of_apart h hu (regOffset_lt reg), hu, regAt_regOffset]

/-- Any host access: what it answers as a next state is one register write, one register read, one memory write or read,
or nothing but the result latch. -/
theorem busAccess_next {op : BusOp} {s t : State} (h : busAccess op s = .next t) :
    (∃ u reg w, writeReg u reg w s = .next t) ∨ (∃ u reg, readReg u reg s = .next t) ∨
    (∃ a b, writeMem a b s = .next t) ∨ (∃ a, readMem a s = .next t) ∨ ∃ x, t = { s with rdReg := x } := by
  cases op with
  | memWrite a b => exact .inr (.inr (.inl ⟨a, b, h⟩))
  | memRead a => exact .inr (.inr (.inr (.inl ⟨a, h⟩)))
  | regWrite a size w =>
    simp only [busAccess] at h
    split at h
    · cases h
    · split at h
      · cases h
      · split at h
        · split at h
          · exact .inl ⟨_, _, _, h⟩
          · cases h
            exact .inr (.inr (.inr (.inr ⟨_, rfl⟩)))
        · cases h
          exact .inr (.inr (.inr (.inr ⟨_, rfl⟩)))
  | regRead a size =>
    simp only [busAccess] at h
    split at h
    · cases h
    · split at h
      · cases h
      · split at h
        · split at h
          · exact .inr (.inl ⟨_, _, h⟩)
          · cases h
            exact .inr (.inr (.inr (.inr ⟨_, rfl⟩)))
        · cases h
          exact .inr (.inr (.inr (.inr ⟨_, rfl⟩)))

/-! ## The words of a register wider than 32 bits (R20) -/

/-- A lane inside the low part of a concatenation. -/
theorem append_low {m n : Nat} (a : BitVec m) (b : BitVec n) {i w : Nat} (h : i + w ≤ n) :
    (a ++ b).extractLsb' i w = b.extractLsb' i w := by
  apply BitVec.eq_of_getLsbD_eq
  intro j hj
  simp only [BitVec.getLsbD_extractLsb', BitVec.getLsbD_append, hj, decide_true, Bool.true_and]
  rw [if_pos (by omega)]

/-- A lane inside the high part of a concatenation. -/
theorem append_high {m n : Nat} (a : BitVec m) (b : BitVec n) {i w : Nat} (h : n ≤ i) :
    (a ++ b).extractLsb' i w = a.extractLsb' (i - n) w := by
  apply BitVec.eq_of_getLsbD_eq
  intro j hj
  simp only [BitVec.getLsbD_extractLsb', BitVec.getLsbD_append, hj, decide_true, Bool.true_and]
  rw [if_neg (by omega), show i + j - n = i - n + j by omega]

/-- The whole of a value is its own lane. -/
theorem lane_all {n : Nat} (a : BitVec n) : a.extractLsb' 0 n = a := by
  apply BitVec.eq_of_getLsbD_eq
  intro j hj
  simp [hj]

/-- A lane of a lane. -/
theorem lane_lane {n : Nat} (a : BitVec n) {i w j v : Nat} (h : j + v ≤ w) :
    (a.extractLsb' i w).extractLsb' j v = a.extractLsb' (i + j) v := by
  apply BitVec.eq_of_getLsbD_eq
  intro k hk
  simp only [BitVec.getLsbD_extractLsb', hk, decide_true, Bool.true_and]
  rw [decide_eq_true (show j + k < w by omega), Bool.true_and, Nat.add_assoc]

/-- The two words of a 64-bit register after its low word is written (R20). -/
theorem lanes_lo (x : DWord) (w : Word) :
    let y : DWord := x.extractLsb' 32 32 ++ w
    y.extractLsb' 0 32 = w ∧ y.extractLsb' 32 32 = x.extractLsb' 32 32 := by
  refine ⟨?_, ?_⟩
  · exact (append_low _ _ (by omega)).trans (lane_all w)
  · exact (append_high _ _ (by omega)).trans (lane_all (x.extractLsb' 32 32))

/-- The two words of a 64-bit register after its high word is written (R20). -/
theorem lanes_hi (x : DWord) (w : Word) :
    let y : DWord := w ++ x.extractLsb' 0 32
    y.extractLsb' 0 32 = x.extractLsb' 0 32 ∧ y.extractLsb' 32 32 = w := by
  refine ⟨?_, ?_⟩
  · exact (append_low _ _ (by omega)).trans (lane_all _)
  · exact (append_high _ _ (by omega)).trans (lane_all _)

/-- The four words of DATA after DATA0 is written (R20). -/
theorem lanes_data0 (x : Data) (w : Word) :
    let y : Data := x.extractLsb' 32 96 ++ w
    y.extractLsb' 0 32 = w ∧ y.extractLsb' 32 32 = x.extractLsb' 32 32 ∧
      y.extractLsb' 64 32 = x.extractLsb' 64 32 ∧ y.extractLsb' 96 32 = x.extractLsb' 96 32 := by
  refine ⟨(append_low _ _ (by omega)).trans (lane_all w), ?_, ?_, ?_⟩ <;>
    exact (append_high _ _ (by omega)).trans (lane_lane _ (by omega))

/-- The four words of DATA after DATA1 is written (R20). -/
theorem lanes_data1 (x : Data) (w : Word) :
    let y : Data := x.extractLsb' 64 64 ++ w ++ x.extractLsb' 0 32
    y.extractLsb' 0 32 = x.extractLsb' 0 32 ∧ y.extractLsb' 32 32 = w ∧
      y.extractLsb' 64 32 = x.extractLsb' 64 32 ∧ y.extractLsb' 96 32 = x.extractLsb' 96 32 := by
  refine ⟨(append_low _ _ (by omega)).trans (lane_all _), ?_, ?_, ?_⟩
  · exact (append_high _ _ (by omega)).trans ((append_low _ _ (by omega)).trans (lane_all w))
  all_goals
    exact (append_high _ _ (by omega)).trans ((append_high _ _ (by omega)).trans (lane_lane _ (by omega)))

/-- The four words of DATA after DATA2 is written (R20). -/
theorem lanes_data2 (x : Data) (w : Word) :
    let y : Data := x.extractLsb' 96 32 ++ w ++ x.extractLsb' 0 64
    y.extractLsb' 0 32 = x.extractLsb' 0 32 ∧ y.extractLsb' 32 32 = x.extractLsb' 32 32 ∧
      y.extractLsb' 64 32 = w ∧ y.extractLsb' 96 32 = x.extractLsb' 96 32 := by
  refine ⟨(append_low _ _ (by omega)).trans (lane_lane _ (by omega)),
    (append_low _ _ (by omega)).trans (lane_lane _ (by omega)), ?_, ?_⟩
  · exact (append_high _ _ (by omega)).trans ((append_low _ _ (by omega)).trans (lane_all w))
  · exact (append_high _ _ (by omega)).trans ((append_high _ _ (by omega)).trans (lane_lane _ (by omega)))

/-- The four words of DATA after DATA3 is written (R20). -/
theorem lanes_data3 (x : Data) (w : Word) :
    let y : Data := w ++ x.extractLsb' 0 96
    y.extractLsb' 0 32 = x.extractLsb' 0 32 ∧ y.extractLsb' 32 32 = x.extractLsb' 32 32 ∧
      y.extractLsb' 64 32 = x.extractLsb' 64 32 ∧ y.extractLsb' 96 32 = w := by
  refine ⟨?_, ?_, ?_, (append_high _ _ (by omega)).trans (lane_all w)⟩ <;>
    exact (append_low _ _ (by omega)).trans (lane_lane _ (by omega))

/-- A store to an operand register changes that register and no other (R20). -/
theorem storeReg_word (addrw : Nat) (r : PkuUnit) (w : Word) {reg : Reg} (h : reg ∈ operandRegs) (reg' : Reg) :
    regWord addrw (storeReg r w reg) reg' = if reg' = reg then w else regWord addrw r reg' := by
  obtain ⟨a0, a1⟩ := lanes_lo r.off w
  obtain ⟨b0, b1⟩ := lanes_hi r.off w
  obtain ⟨c0, c1⟩ := lanes_lo r.base w
  obtain ⟨d0, d1⟩ := lanes_hi r.base w
  obtain ⟨e0, e1⟩ := lanes_lo r.len w
  obtain ⟨f0, f1⟩ := lanes_hi r.len w
  obtain ⟨g0, g1, g2, g3⟩ := lanes_data0 r.data w
  obtain ⟨h0, h1, h2, h3⟩ := lanes_data1 r.data w
  obtain ⟨i0, i1, i2, i3⟩ := lanes_data2 r.data w
  obtain ⟨j0, j1, j2, j3⟩ := lanes_data3 r.data w
  simp only [operandRegs, List.mem_cons, List.not_mem_nil, or_false] at h
  rcases h with rfl | rfl | rfl | rfl | rfl | rfl | rfl | rfl | rfl | rfl <;>
    cases reg' <;>
      simp only [storeReg, regWord, if_true, reduceCtorEq, if_false] <;> with_reducible assumption

/-- The bits of the word that STATUS reads as (R23). -/
theorem status_toWord_bits : ∀ (busy done ecap eill ewrap ebusy : Bool) (k : Nat), k < 32 →
    (Status.toWord ⟨busy, done, ecap, eill, ewrap, ebusy⟩).getLsbD k =
      if k = 0 then busy else if k = 1 then done else if k = 2 then ecap else if k = 3 then eill
      else if k = 4 then ewrap else if k = 5 then ebusy else false := by
  decide +kernel

/-- Whether an error bit of STATUS is set, as the word that STATUS reads as shows it (R27). -/
theorem code_bit (st : Status) (f : FaultCode) : st.toWord.getLsbD f.code =
    match f with | .ecap => st.ecap | .eill => st.eill | .ewrap => st.ewrap | .ebusy => st.ebusy := by
  obtain ⟨a, b, c, d, e, g⟩ := st
  cases f <;> exact status_toWord_bits a b c d e g _ (by decide)

/-- Putting back a unit with the same REGBASE leaves the blocks apart. -/
theorem blocksApart_set {us : List PkuUnit} {u : Nat} {r r' : PkuUnit} (hr : us[u]? = some r)
    (hb : r'.regbase = r.regbase) (h : BlocksApart us) : BlocksApart (us.set u r') := by
  obtain ⟨hlt, rfl⟩ := List.getElem?_eq_some_iff.mp hr
  have e : (us.set u r').map PkuUnit.regbase = us.map PkuUnit.regbase := by
    rw [List.map_set, hb]
    apply List.ext_getElem?
    intro j
    by_cases hj : j = u
    · subst hj
      simp [hlt]
    · rw [List.getElem?_set_ne (Ne.symm hj)]
  refine ⟨fun v hv => ?_, e ▸ h.2⟩
  obtain ⟨r0, h0, he⟩ := List.mem_map.mp (e ▸ List.mem_map_of_mem hv : v.regbase ∈ us.map PkuUnit.regbase)
  rw [← he]
  exact h.1 r0 h0

end Sys2Proof.Machine
end

