-- ==== Sys2Proof/Laws/Decode.lean ====
section
/-! SUPPORT. Decoding and encoding field by field (R70 to R74). -/

namespace Sys2Proof

/-- A word is the concatenation of its fields (R70). -/
theorem toWord_ofWord (w : Word) : (CmdFields.ofWord w).toWord = w := by
  simp only [CmdFields.ofWord, CmdFields.toWord]
  apply BitVec.eq_of_getLsbD_eq
  intro i hi
  simp only [BitVec.getLsbD_append, BitVec.getLsbD_extractLsb']
  split
  · rename_i h1
    simp [h1, hi]
  · rename_i h1
    split
    · rename_i h2
      rw [show 2 + (i - 2) = i by omega]
      simp [h2, hi]
    · rename_i h2
      split
      · rename_i h3
        rw [show 5 + (i - 2 - 3) = i by omega]
        simp only [h3, decide_true, Bool.true_and]
      · rename_i h3
        rw [show 6 + (i - 2 - 3 - 1) = i by omega]
        simp [show i - 2 - 3 - 1 < 26 by omega, hi]

/-- An OP code that decodes is the code of its operation (R70). -/
theorem decodeOp_ok {b : BitVec 2} {op : Op} (h : decodeOp b = .ok op) : b = op.code := by
  unfold decodeOp at h
  split at h
  · cases h; assumption
  · split at h
    · cases h; assumption
    · cases h

/-- A pair (WC, S) that decodes is the code of its type (R71, R72). -/
theorem decodeType_ok {b : BitVec 3} {s : BitVec 1} {tc : TypeCode} (h : decodeType b s = .ok tc) :
    b = tc.wc ∧ s = tc.s := by
  have key : ∀ (b : BitVec 3) (s : BitVec 1),
      (match decodeType b s with
        | .ok tc => decide (b = tc.wc ∧ s = tc.s)
        | .error _ => true) = true := by decide +kernel
  have := key b s
  rw [h] at this
  simpa using this

end Sys2Proof
end

