-- ==== Sys2Proof/Laws/Step.lean ====
section
/-! SUPPORT. Completion and issue of a command as one equation each, the first scheduled turn, and what any step can do to a
unit and to the memory, said once. -/

namespace Sys2Proof.Machine

open Sys2Proof

/-! ## Issue and completion in the terms of Safety -/

theorem exec_issue {i : Instr} {s : State} {r : PkuUnit} (h : Idle s r) :
    exec i s = .next (issueCommand i (typeWidth r.ptrw i.typeCode) s r) := exec_idle i h.1 h.2

theorem exec_accept {i : Instr} {s : State} {r : PkuUnit} (h : Idle s r)
    (hf : Fits s.addrw (typeWidth r.ptrw i.typeCode) r) :
    exec i s = .next (acceptCommand s (r.store (encode i))) := by
  rw [exec_issue h, issueCommand_accept (capacityOk_iff.mpr hf.1) (windowOk_iff.mpr hf.2)]

theorem spanInMem_of_fits {s : State} {r : PkuUnit} {W : Nat} (h : Fits s.addrw W r) :
    spanInMem s.addrw r.base.toNat r.off.toNat W = true :=
  spanInMem_of_accepted (capacityOk_iff.mpr h.1) (windowOk_iff.mpr h.2)

/-- The completion step of an UNPACK that met no race (R112). -/
theorem exec_unpack_done {i : Instr} (hi : i.op = .unpack) {s : State} {r : PkuUnit}
    (h : Performing s r (typeWidth r.ptrw i.typeCode)) :
    exec i s = .next (s.setUnit { r with
      data := typeExtend i.typeCode (typeWidth r.ptrw i.typeCode)
        (extract s.mem r.base.toNat r.off.toNat (typeWidth r.ptrw i.typeCode))
      status := finishedStatus r.status }) := by
  obtain ⟨hu, hb, hf, hr⟩ := h
  rw [exec_busy_unpack hi hu hb, completeUnpack_quiet (spanInMem_of_fits hf) hr]
  rfl

/-- The completion step of a PACK that met no race (R112). -/
theorem exec_pack_done {i : Instr} (hi : i.op = .pack) {s : State} {r : PkuUnit}
    (h : Performing s r (typeWidth r.ptrw i.typeCode)) :
    exec i s = .next { s.setUnit { r with status := finishedStatus r.status } with
      mem := insertField s.mem r.base.toNat r.off.toNat (typeWidth r.ptrw i.typeCode)
        (packValue r.data (typeWidth r.ptrw i.typeCode)) } := by
  obtain ⟨hu, hb, hf, hr⟩ := h
  rw [exec_busy_pack hi hu hb, completePack_quiet (spanInMem_of_fits hf) hr]
  rfl

/-! ## Turns -/

theorem step_scheduled {s : State} {t : Turn} {rest : List Turn} (h : s.schedule = t :: rest) :
    step s = runTurn t { s with schedule := rest } := by
  simp [step, h]

theorem step_idle_schedule {s : State} (h : s.schedule = []) : step s = runTurn (defaultTurn s) s := by
  simp [step, h]

/-- Every step is the next turn, on a state that differs in the schedule only. -/
theorem step_nextTurn (s : State) : ∃ q, step s = runTurn (nextTurn s) { s with schedule := q } := by
  cases h : s.schedule with
  | nil =>
    have hn : nextTurn s = defaultTurn s := by simp only [nextTurn, h]
    exact ⟨s.schedule, by rw [step_idle_schedule h, hn]⟩
  | cons t rest => exact ⟨rest, by rw [step_scheduled h, nextTurn, h]⟩

theorem step_turn (s : State) : ∃ t q, step s = runTurn t { s with schedule := q } := ⟨_, step_nextTurn s⟩

/-- A busy unit's turn runs the command in its CMD (R112). -/
theorem completeTurn_busy {s : State} {u : Nat} {r : PkuUnit} {i : Instr} (hu : s.units[u]? = some r)
    (hb : r.status.busy = true) (hd : decode r.cmd = .ok i) : completeTurn u s = exec i { s with cur := u } := by
  simp [completeTurn, hu, hb, hd]

/-- A CMD write of a legal word that is not ignored runs its command (R35, R111). -/
theorem writeReg_cmd {s : State} {u : Nat} {r : PkuUnit} {w : Word} {i : Instr} (hu : s.units[u]? = some r)
    (hb : r.status.busy = false) (hh : r.status.halted = false) (hd : decode w = .ok i) :
    writeReg u .cmd w s = exec i { s with cur := u } := by
  simp [writeReg, hu, hb, hh, writeCmd, hd]

/-! ## What a step does to a unit -/

/-- Everything that a step can do to one unit; `addrw` is ADDRW. -/
inductive UnitChange (addrw : Nat) (r : PkuUnit) : PkuUnit → Prop
  | none : UnitChange addrw r r
  | note (ws : List Nat) : UnitChange addrw r (r.noteWrites ws)
  | w1c (w : Word) : UnitChange addrw r { r with status := r.status.w1c w }
  | ebusy (hb : r.status.busy = true) : UnitChange addrw r (r.raise .ebusy)
  | store (reg : Reg) (w : Word) (hb : r.status.busy = false) : UnitChange addrw r (storeReg r w reg)
  | illegal (w : Word) (hb : r.status.busy = false) (hh : r.status.halted = false) :
      UnitChange addrw r ((r.store w).raise .eill)
  | capacity (w : Word) (hb : r.status.busy = false) (hh : r.status.halted = false) :
      UnitChange addrw r ((r.store w).raise .ecap)
  | window (w : Word) (hb : r.status.busy = false) (hh : r.status.halted = false) :
      UnitChange addrw r ((r.store w).raise .ewrap)
  | accept (i : Instr) (ws : List Nat) (hb : r.status.busy = false) (hh : r.status.halted = false)
      (hf : Fits addrw (typeWidth r.ptrw i.typeCode) r) :
      UnitChange addrw r ((r.store (encode i)).accept.noteWrites ws)
  | unpacked (d : Data) (i : Instr) (hb : r.status.busy = true) (hd : decode r.cmd = .ok i) (hi : i.op = .unpack) :
      UnitChange addrw r ({ r with data := d } : PkuUnit).finish
  | packed (hb : r.status.busy = true) : UnitChange addrw r r.finish
  | reset : UnitChange addrw r (PkuUnit.ofReset r.ptrw r.regbase)

/-- Everything that a step can do to all units: none appears or goes, each changes by `UnitChange`. -/
def UnitsChange (s t : State) : Prop :=
  t.addrw = s.addrw ∧ t.units.length = s.units.length ∧ (t.cur = s.cur ∨ t.cur < s.units.length) ∧
    ∀ (k : Nat) (r : PkuUnit), s.units[k]? = some r → ∃ r', t.units[k]? = some r' ∧ UnitChange s.addrw r r'

theorem unitsChange_same {s t : State} (ha : t.addrw = s.addrw) (hu : t.units = s.units)
    (hc : t.cur = s.cur ∨ t.cur < s.units.length) : UnitsChange s t :=
  ⟨ha, by rw [hu], hc, fun k r h => ⟨r, by rw [hu, h], .none⟩⟩

/-- A step that puts back one unit. -/
theorem unitsChange_set {s t : State} {u : Nat} {r r' : PkuUnit} (ha : t.addrw = s.addrw)
    (hu : t.units = s.units.set u r') (hr : s.units[u]? = some r) (hc : t.cur = s.cur ∨ t.cur < s.units.length)
    (h : UnitChange s.addrw r r') : UnitsChange s t := by
  refine ⟨ha, by rw [hu, List.length_set], hc, fun k v hv => ?_⟩
  rw [hu]
  by_cases hk : k = u
  · subst hk
    have hlt := (List.getElem?_eq_some_iff.mp hr).1
    rw [hr] at hv
    cases hv
    exact ⟨r', by simp [hlt], h⟩
  · exact ⟨v, by rw [List.getElem?_set_ne (Ne.symm hk), hv], .none⟩

/-- Issue of a command on a unit neither busy nor halted. -/
theorem issueCommand_units {i : Instr} {s : State} {r : PkuUnit} (hu : s.unit? = some r)
    (hb : r.status.busy = false) (hh : r.status.halted = false) :
    UnitsChange s (issueCommand i (typeWidth r.ptrw i.typeCode) s r) := by
  by_cases hc : capacityOk r.off r.len (typeWidth r.ptrw i.typeCode) = true
  · by_cases hw : windowOk s.addrw r.base r.len = true
    · rw [issueCommand_accept hc hw]
      refine ⟨rfl, by simp [acceptCommand], .inl rfl, fun k v hv => ?_⟩
      by_cases hk : k = s.cur
      · subst hk
        rw [unit?_eq, hv] at hu
        cases hu
        exact ⟨_, acceptCommand_unit (List.getElem?_eq_some_iff.mp hv).1 _,
          .accept i _ hb hh ⟨capacityOk_iff.mp hc, windowOk_iff.mp hw⟩⟩
      · exact ⟨_, by rw [acceptCommand_other s _ hk, hv]; rfl, .note _⟩
    · rw [Bool.not_eq_true] at hw
      rw [issueCommand_window hc hw]
      exact unitsChange_set rfl rfl hu (.inl rfl) (.window _ hb hh)
  · rw [Bool.not_eq_true] at hc
    rw [issueCommand_capacity hc]
    exact unitsChange_set rfl rfl hu (.inl rfl) (.capacity _ hb hh)

/-- A completion step. -/
theorem exec_busy_units {i : Instr} {s t : State} {r : PkuUnit} (hu : s.unit? = some r) (hb : r.status.busy = true)
    (hd : decode r.cmd = .ok i) (h : exec i s = .next t) : UnitsChange s t := by
  cases hi : i.op with
  | unpack =>
    rw [exec_busy_unpack hi hu hb] at h
    obtain ⟨_, d, n, rfl⟩ := completeUnpack_next h
    exact unitsChange_set rfl rfl hu (.inl rfl) (.unpacked d i hb hd hi)
  | pack =>
    rw [exec_busy_pack hi hu hb] at h
    obtain ⟨_, n, rfl⟩ := completePack_next h
    exact unitsChange_set rfl rfl hu (.inl rfl) (.packed hb)

/-- A change seen from a state that differs in the unit in hand and the schedule only. -/
theorem UnitsChange.ofCur {s t : State} {u : Nat} (hu : u < s.units.length)
    (h : UnitsChange { s with cur := u } t) : UnitsChange s t := by
  obtain ⟨ha, hl, hc, hk⟩ := h
  refine ⟨ha, hl, .inr ?_, hk⟩
  rcases hc with hc | hc
  · rw [hc]; exact hu
  · exact hc

theorem writeReg_units {s t : State} {u : Nat} {reg : Reg} {w : Word} (h : writeReg u reg w s = .next t) :
    UnitsChange s t := by
  unfold writeReg at h
  split at h
  · cases h
  · rename_i r hr
    have hlt := (List.getElem?_eq_some_iff.mp hr).1
    have hop : ∀ reg, (if r.status.busy then Host.Outcome.next (s.putUnit u (r.raise .ebusy))
        else .next (s.putUnit u (storeReg r w reg)) : Host.Outcome State Fault Refusal) = .next t → UnitsChange s t := by
      intro reg h
      split at h
      · rename_i hb
        cases h
        exact unitsChange_set rfl rfl hr (.inl rfl) (.ebusy hb)
      · rename_i hb
        rw [Bool.not_eq_true] at hb
        cases h
        exact unitsChange_set rfl rfl hr (.inl rfl) (.store reg w hb)
    cases reg with
    | status =>
      cases h
      exact unitsChange_set rfl rfl hr (.inl rfl) (.w1c w)
    | cmd =>
      simp only at h
      split at h
      · rename_i hb
        cases h
        exact unitsChange_set rfl rfl hr (.inl rfl) (.ebusy hb)
      · rename_i hb
        rw [Bool.not_eq_true] at hb
        split at h
        · cases h
          exact unitsChange_same rfl rfl (.inl rfl)
        · rename_i hh
          rw [Bool.not_eq_true] at hh
          unfold writeCmd at h
          split at h
          · rename_i i _
            have hu : State.unit? { s with cur := u } = some r := hr
            rw [exec_idle i hu hb] at h
            cases h
            exact (issueCommand_units hu hb hh).ofCur hlt
          · cases h
            exact unitsChange_set rfl rfl hr (.inr hlt) (.illegal w hb hh)
    | cfg | rsv0C | rsv28 | rsv2C =>
      cases h
      exact unitsChange_same rfl rfl (.inl rfl)
    | offLo | offHi | baseLo | baseHi | lenLo | lenHi | data0 | data1 | data2 | data3 => exact hop _ h

theorem readReg_units {s t : State} {u : Nat} {reg : Reg} (h : readReg u reg s = .next t) : UnitsChange s t := by
  unfold readReg at h
  split at h
  · cases h
  · split at h <;> cases h <;> exact unitsChange_same rfl rfl (.inl rfl)

theorem busAccess_units {s t : State} {op : BusOp} (h : busAccess op s = .next t) : UnitsChange s t := by
  rcases busAccess_next h with ⟨u, reg, w, h⟩ | ⟨u, reg, h⟩ | ⟨a, b, h⟩ | ⟨a, h⟩ | ⟨x, rfl⟩
  · exact writeReg_units h
  · exact readReg_units h
  · unfold writeMem at h
    split at h
    · cases h
      exact ⟨rfl, by simp, .inl rfl, fun k r hr => ⟨r.noteWrites [a], by simp [hr], .note _⟩⟩
    · cases h
  · unfold readMem at h
    split at h
    · split at h <;> cases h <;> exact unitsChange_same rfl rfl (.inl rfl)
    · cases h
  · exact unitsChange_same rfl rfl (.inl rfl)

/-- A host statement: at most one access, then changes to the host's own fields only. -/
theorem runStmt_next {st : HostStmt} {s t : State} (h : runStmt st s = .next t) :
    ∃ h', t = { s with host := h' } ∨ ∃ op s', busAccess op s = .next s' ∧ t = { s' with host := h' } := by
  have hand : ∀ {op : BusOp} {f : State → State}, (∀ s, ∃ h', f s = { s with host := h' }) →
      andThen (busAccess op s) f = .next t →
        ∃ h', t = { s with host := h' } ∨ ∃ op s', busAccess op s = .next s' ∧ t = { s' with host := h' } := by
    intro op f hf h
    unfold andThen at h
    split at h
    · rename_i s' hs'
      cases h
      obtain ⟨h', hh⟩ := hf s'
      exact ⟨h', .inr ⟨op, s', hs', hh⟩⟩
    · cases h
    · cases h
  cases st with
  | wr u reg e =>
    simp only [runStmt] at h
    split at h
    · cases h
    · split at h
      · cases h
      · exact hand (fun _ => ⟨_, rfl⟩) h
  | rd u reg x =>
    simp only [runStmt] at h
    split at h
    · cases h
    · exact hand (fun _ => ⟨_, rfl⟩) h
  | wait u =>
    simp only [runStmt] at h
    split at h
    · cases h
    · refine hand (fun s' => ?_) h
      split
      · exact ⟨s'.host, rfl⟩
      · exact ⟨_, rfl⟩
  | memB e b =>
    simp only [runStmt] at h
    split at h
    · cases h
    · split at h
      · cases h
      · exact hand (fun _ => ⟨_, rfl⟩) h
  | letE x e =>
    simp only [runStmt] at h
    split at h
    · cases h
    · cases h
      exact ⟨_, .inl rfl⟩
  | label l =>
    cases h
    exact ⟨_, .inl rfl⟩
  | ifGoto a c b l =>
    simp only [runStmt] at h
    split at h
    · split at h
      · split at h
        · cases h
        · cases h
          exact ⟨_, .inl rfl⟩
      · cases h
        exact ⟨_, .inl rfl⟩
    · cases h

theorem resetUnit_units {s t : State} {u : Nat} (h : resetUnit u s = .next t) : UnitsChange s t := by
  unfold resetUnit at h
  split at h
  · cases h
  · rename_i r hr
    simp only at h
    split at h
    · split at h
      · cases h
      · split at h
        · cases h
          exact unitsChange_set rfl rfl hr (.inl rfl) .reset
        · split at h
          · cases h
            exact unitsChange_set rfl rfl hr (.inl rfl) .reset
          · cases h
    · cases h
      exact unitsChange_set rfl rfl hr (.inl rfl) .reset

theorem completeTurn_units {s t : State} {u : Nat} (h : completeTurn u s = .next t) : UnitsChange s t := by
  unfold completeTurn at h
  split at h
  · cases h
  · rename_i r hr
    split at h
    · rename_i hb
      split at h
      · rename_i i hd
        exact (exec_busy_units (s := { s with cur := u }) hr hb hd h).ofCur (List.getElem?_eq_some_iff.mp hr).1
      · cases h
    · cases h
      exact unitsChange_same rfl rfl (.inl rfl)

theorem runTurn_units {s t : State} {tn : Turn} (h : runTurn tn s = .next t) : UnitsChange s t := by
  cases tn with
  | host =>
    simp only [runTurn, hostTurn] at h
    split at h
    · cases h
      exact unitsChange_same rfl rfl (.inl rfl)
    · obtain ⟨h', rfl | ⟨op, s', hb, rfl⟩⟩ := runStmt_next h
      · exact unitsChange_same rfl rfl (.inl rfl)
      · exact (busAccess_units hb : UnitsChange s s')
  | access op => exact busAccess_units h
  | complete u => exact completeTurn_units h
  | reset u => exact resetUnit_units h

/-- What any step can do to the units. -/
theorem step_units {s t : State} (h : step s = .next t) : UnitsChange s t := by
  obtain ⟨tn, q, hs⟩ := step_turn s
  rw [hs] at h
  exact (runTurn_units h : UnitsChange { s with schedule := q } t)

/-! ## What a step does to the memory -/

/-- Memory stays canonical and inside `Mem`. -/
def MemOk (s : State) : Prop := Memory.wf s.mem = true ∧ ∀ c ∈ s.mem, c.1 < 2 ^ s.addrw

theorem insertField_memOk {s : State} (h : MemOk s) {base o W v : Nat} (hs : spanInMem s.addrw base o W = true) :
    Memory.wf (insertField s.mem base o W v) = true ∧ ∀ c ∈ insertField s.mem base o W v, c.1 < 2 ^ s.addrw :=
  ⟨insertField_wf h.1 _ _ _ _, insertLoop_bound h.2 _ _ _ _ _ (spanInMem_iff.mp hs)⟩

theorem exec_memOk {i : Instr} {s t : State} (hm : MemOk s) (h : exec i s = .next t) : MemOk t := by
  cases hu : s.unit? with
  | none =>
    rw [exec_no_unit i hu] at h
    cases h
  | some r =>
    cases hb : r.status.busy with
    | false =>
      rw [exec_idle i hu hb] at h
      cases h
      unfold issueCommand
      simp only
      split
      · split
        · exact hm
        · exact hm
      · exact hm
    | true =>
      cases hi : i.op with
      | unpack =>
        rw [exec_busy_unpack hi hu hb] at h
        obtain ⟨_, d, n, rfl⟩ := completeUnpack_next h
        exact hm
      | pack =>
        rw [exec_busy_pack hi hu hb] at h
        obtain ⟨hs, n, rfl⟩ := completePack_next h
        have hi := insertField_memOk hm hs (v := packValue r.data (typeWidth r.ptrw i.typeCode))
        exact ⟨scramble_wf hi.1 _ _,
          scramble_bound hi.2 (fun a ha => lt_of_mem_span hs (mem_racedSpan.mp ha).1) _⟩

theorem busAccess_memOk {op : BusOp} {s t : State} (hm : MemOk s) (h : busAccess op s = .next t) : MemOk t := by
  rcases busAccess_next h with ⟨u, reg, w, h⟩ | ⟨u, reg, h⟩ | ⟨a, b, h⟩ | ⟨a, h⟩ | ⟨x, rfl⟩
  · unfold writeReg at h
    split at h
    · cases h
    · split at h
      · cases h
        exact hm
      · cases h
        exact hm
      · cases h
        exact hm
      · cases h
        exact hm
      · cases h
        exact hm
      · split at h
        · cases h
          exact hm
        · split at h
          · cases h
            exact hm
          · unfold writeCmd at h
            split at h
            · exact exec_memOk (s := { s with cur := u }) hm h
            · cases h
              exact hm
      all_goals
        split at h
        · cases h
          exact hm
        · cases h
          exact hm
  · unfold readReg at h
    split at h
    · cases h
    · split at h <;> cases h <;> exact hm
  · unfold writeMem at h
    split at h
    · cases h
      exact ⟨write_wf hm.1 _ _, write_bound hm.2 (by assumption)⟩
    · cases h
  · unfold readMem at h
    split at h
    · split at h <;> cases h <;> exact hm
    · cases h
  · exact hm

theorem resetUnit_memOk {u : Nat} {s t : State} (hm : MemOk s) (h : resetUnit u s = .next t) : MemOk t := by
  unfold resetUnit at h
  split at h
  · cases h
  · simp only at h
    split at h
    · split at h
      · cases h
      · split at h
        · cases h
          exact hm
        · split at h
          · rename_i hs
            cases h
            exact ⟨tear_wf hm.1 _ _ _, tear_bound hm.2 _ (fun a ha => lt_of_mem_span hs ha) _⟩
          · cases h
    · cases h
      exact hm

/-- Every step keeps the memory canonical and inside `Mem`. -/
theorem step_memOk {s t : State} (hm : MemOk s) (h : step s = .next t) : MemOk t := by
  obtain ⟨tn, q, hs⟩ := step_turn s
  rw [hs] at h
  have hm' : MemOk { s with schedule := q } := hm
  cases tn with
  | host =>
    simp only [runTurn, hostTurn] at h
    split at h
    · cases h
      exact hm
    · obtain ⟨h', rfl | ⟨op, s', hb, rfl⟩⟩ := runStmt_next h
      · exact hm
      · exact (busAccess_memOk hm' hb : MemOk s')
  | access op => exact busAccess_memOk hm' h
  | complete u =>
    simp only [runTurn, completeTurn] at h
    split at h
    · cases h
    · split at h
      · split at h
        · exact exec_memOk (s := { s with schedule := q, cur := u }) hm h
        · cases h
      · cases h
        exact hm
  | reset u => exact resetUnit_memOk hm' h

end Sys2Proof.Machine
end

