-- ==== Sys2Proof/Laws/Errors.lean ====
section
/-! SUPPORT. What clears an error bit (R23, R229): no command, no read, no memory access and no register write but a write to
STATUS; and what a host statement accesses. -/

namespace Sys2Proof.Machine

open Sys2Proof

/-- No error bit of any unit goes from 1 to 0. -/
def ErrorsKept (s t : State) : Prop :=
  ∀ (u : Nat) (r r' : PkuUnit) (f : FaultCode), s.units[u]? = some r → t.units[u]? = some r' →
    r.status.toWord.getLsbD f.code = true → r'.status.toWord.getLsbD f.code = true

theorem errorsKept_same {s t : State} (h : t.units = s.units) : ErrorsKept s t := by
  intro u r r' f hr hr' hf
  rw [h, hr] at hr'
  cases hr'
  exact hf

/-- A step that puts back one unit with its error bits kept. -/
theorem errorsKept_set {s t : State} {u : Nat} {r r' : PkuUnit} (ht : t.units = s.units.set u r')
    (hr : s.units[u]? = some r)
    (h : ∀ f : FaultCode, r.status.toWord.getLsbD f.code = true → r'.status.toWord.getLsbD f.code = true) :
    ErrorsKept s t := by
  intro k v v' f hv hv' hf
  rw [ht] at hv'
  by_cases hk : k = u
  · subst hk
    rw [hr] at hv
    cases hv
    rw [List.getElem?_set_self (List.getElem?_eq_some_iff.mp hr).1] at hv'
    cases hv'
    exact h f hf
  · rw [List.getElem?_set_ne (Ne.symm hk), hv] at hv'
    cases hv'
    exact hf

/-- Raising a fault clears no error bit (R226). -/
theorem raise_kept (st : Status) (g f : FaultCode) (h : st.toWord.getLsbD f.code = true) :
    (st.raise g).toWord.getLsbD f.code = true := by
  rw [code_bit] at *
  cases f <;> cases g <;> first | exact h | rfl

/-- A command, issued or completing, clears no error bit. -/
theorem exec_errors {i : Instr} {s t : State} (h : exec i s = .next t) : ErrorsKept s t := by
  cases hu : s.unit? with
  | none => rw [exec_no_unit i hu] at h; cases h
  | some r =>
    cases hb : r.status.busy with
    | false =>
      rw [exec_idle i hu hb] at h
      cases h
      by_cases hc : capacityOk r.off r.len (typeWidth r.ptrw i.typeCode) = true
      · by_cases hw : windowOk s.addrw r.base r.len = true
        · rw [issueCommand_accept hc hw]
          intro k v v' f hv hv' hf
          by_cases hk : k = s.cur
          · subst hk
            rw [unit?_eq, hv] at hu
            cases hu
            rw [acceptCommand_unit (List.getElem?_eq_some_iff.mp hv).1] at hv'
            cases hv'
            rw [code_bit] at *
            cases f <;> exact hf
          · rw [acceptCommand_other s _ hk, hv] at hv'
            cases hv'
            exact hf
        · rw [Bool.not_eq_true] at hw
          rw [issueCommand_window hc hw]
          refine errorsKept_set rfl hu fun f hf => raise_kept _ _ f ?_
          rw [code_bit] at *
          cases f <;> exact hf
      · rw [Bool.not_eq_true] at hc
        rw [issueCommand_capacity hc]
        refine errorsKept_set rfl hu fun f hf => raise_kept _ _ f ?_
        rw [code_bit] at *
        cases f <;> exact hf
    | true =>
      have hfin : ∀ f : FaultCode, r.status.toWord.getLsbD f.code = true →
          r.status.complete.toWord.getLsbD f.code = true := by
        intro f hf
        rw [code_bit] at *
        cases f <;> exact hf
      cases hi : i.op with
      | unpack =>
        rw [exec_busy_unpack hi hu hb] at h
        obtain ⟨_, d, n, rfl⟩ := completeUnpack_next h
        exact errorsKept_set rfl hu hfin
      | pack =>
        rw [exec_busy_pack hi hu hb] at h
        obtain ⟨_, n, rfl⟩ := completePack_next h
        exact errorsKept_set rfl hu hfin

/-- A write to a register other than STATUS clears no error bit. -/
theorem writeReg_errors {s t : State} {u : Nat} {reg : Reg} {w : Word} (h : writeReg u reg w s = .next t)
    (hn : reg ≠ .status) : ErrorsKept s t := by
  unfold writeReg at h
  split at h
  · cases h
  · rename_i r hr
    have hbusy : ErrorsKept s (s.putUnit u (r.raise .ebusy)) := errorsKept_set rfl hr fun f => raise_kept _ _ f
    have hop : ∀ reg, (if r.status.busy then Host.Outcome.next (s.putUnit u (r.raise .ebusy))
        else .next (s.putUnit u (storeReg r w reg)) : Host.Outcome State Fault Refusal) = .next t → ErrorsKept s t := by
      intro reg h
      split at h <;> cases h
      · exact hbusy
      · refine errorsKept_set rfl hr fun f hf => ?_
        have : (storeReg r w reg).status = r.status := by cases reg <;> rfl
        rw [this]; exact hf
    cases reg with
    | status => exact absurd rfl hn
    | cmd =>
      simp only at h
      split at h
      · cases h; exact hbusy
      · split at h
        · cases h; exact errorsKept_same rfl
        · unfold writeCmd at h
          split at h
          · exact (exec_errors h : ErrorsKept { s with cur := u } t)
          · cases h
            refine errorsKept_set rfl hr fun f hf => raise_kept _ _ f ?_
            rw [code_bit] at *
            cases f <;> exact hf
    | cfg | rsv0C | rsv28 | rsv2C => cases h; exact errorsKept_same rfl
    | offLo | offHi | baseLo | baseHi | lenLo | lenHi | data0 | data1 | data2 | data3 => exact hop _ h

theorem readReg_errors {s t : State} {u : Nat} {reg : Reg} (h : readReg u reg s = .next t) : ErrorsKept s t := by
  unfold readReg at h
  split at h
  · cases h
  · split at h <;> cases h <;> exact errorsKept_same rfl

/-- A host access keeps every error bit, or is a word write to a unit's STATUS (R23). -/
theorem busAccess_errors {s t : State} {op : BusOp} (h : busAccess op s = .next t) : ErrorsKept s t ∨
    ∃ u r w, s.units[u]? = some r ∧ op = .regWrite (r.regbase + 8) .word w ∧
      t = s.putUnit u { r with status := r.status.w1c w } := by
  cases op with
  | memWrite a b =>
    simp only [busAccess, writeMem] at h
    split at h <;> cases h
    refine .inl fun k v v' f hv hv' hf => ?_
    simp only [List.getElem?_map, hv] at hv'
    cases hv'
    exact hf
  | memRead a =>
    simp only [busAccess, readMem] at h
    split at h
    · split at h <;> cases h <;> exact .inl (errorsKept_same rfl)
    · cases h
  | regRead a size =>
    simp only [busAccess] at h
    split at h
    · cases h
    · split at h
      · cases h
      · split at h
        · split at h
          · exact .inl (readReg_errors h)
          · cases h; exact .inl (errorsKept_same rfl)
        · cases h; exact .inl (errorsKept_same rfl)
  | regWrite a size w =>
    simp only [busAccess] at h
    split at h
    · cases h
    · rename_i u hu
      split at h
      · cases h
      · rename_i r hr
        split at h
        · rename_i hs
          split at h
          · rename_i reg hreg
            by_cases hst : reg = .status
            · subst hst
              have h8 := regAt_status hreg
              have hle := unitAt_le hu hr
              simp only [writeReg, hr] at h
              cases h
              exact .inr ⟨u, r, w, hr, by rw [hs, show a = r.regbase + 8 by omega], rfl⟩
            · exact .inl (writeReg_errors h hst)
          · cases h; exact .inl (errorsKept_same rfl)
        · cases h; exact .inl (errorsKept_same rfl)

/-- A host statement's access: at most one, and a word write only for a `wr` statement, of its value at its register (R77). -/
theorem runStmt_access {st : HostStmt} {s t : State} (h : runStmt st s = .next t) :
    t.units = s.units ∨ ∃ op s', busAccess op s = .next s' ∧ t.units = s'.units ∧
      ∀ a w, op = .regWrite a .word w → ∃ u reg e v, st = .wr u reg e ∧ evalExpr s.host.vars e = some v ∧
        regAddr? s u reg = some a ∧ w = BitVec.ofInt 32 v := by
  have hand : ∀ {op : BusOp} {f : State → State}, andThen (busAccess op s) f = .next t → (∀ s, (f s).units = s.units) →
      ∃ s', busAccess op s = .next s' ∧ t.units = s'.units := by
    intro op f h hf
    unfold andThen at h
    split at h
    · rename_i s' hs'
      cases h
      exact ⟨s', hs', hf s'⟩
    · cases h
    · cases h
  cases st with
  | wr u reg e =>
    simp only [runStmt] at h
    split at h
    · cases h
    · rename_i v hv
      split at h
      · cases h
      · rename_i a ha
        obtain ⟨s', h1, h2⟩ := hand h (fun _ => rfl)
        refine .inr ⟨_, s', h1, h2, fun a' w' hw => ?_⟩
        cases hw
        exact ⟨u, reg, e, v, rfl, hv, ha, rfl⟩
  | rd u reg x =>
    simp only [runStmt] at h
    split at h
    · cases h
    · obtain ⟨s', h1, h2⟩ := hand h (fun _ => rfl)
      exact .inr ⟨_, s', h1, h2, fun a w hw => by cases hw⟩
  | wait u =>
    simp only [runStmt] at h
    split at h
    · cases h
    · obtain ⟨s', h1, h2⟩ := hand h (fun s' => by split <;> rfl)
      exact .inr ⟨_, s', h1, h2, fun a w hw => by cases hw⟩
  | memB e b =>
    simp only [runStmt] at h
    split at h
    · cases h
    · split at h
      · cases h
      · obtain ⟨s', h1, h2⟩ := hand h (fun _ => rfl)
        exact .inr ⟨_, s', h1, h2, fun a w hw => by cases hw⟩
  | letE x e =>
    simp only [runStmt] at h
    split at h
    · cases h
    · cases h; exact .inl rfl
  | label l => cases h; exact .inl rfl
  | ifGoto a c b l =>
    simp only [runStmt] at h
    split at h
    · split at h
      · split at h
        · cases h
        · cases h; exact .inl rfl
      · cases h; exact .inl rfl
    · cases h

/-- A reset clears the error bits of its own unit only (R233, R250). -/
theorem resetUnit_errors {s t : State} {u k : Nat} {r r' : PkuUnit} {f : FaultCode} (h : resetUnit u s = .next t)
    (hr : s.units[k]? = some r) (hr' : t.units[k]? = some r') (h1 : r.status.toWord.getLsbD f.code = true)
    (h2 : r'.status.toWord.getLsbD f.code = false) : u = k ∧ r' = PkuUnit.ofReset r.ptrw r.regbase := by
  have key : ∀ v, s.units[u]? = some v → t.units = s.units.set u (PkuUnit.ofReset v.ptrw v.regbase) →
      u = k ∧ r' = PkuUnit.ofReset r.ptrw r.regbase := by
    intro v hv ht
    rw [ht] at hr'
    by_cases hk : u = k
    · subst hk
      rw [hr] at hv
      cases hv
      rw [List.getElem?_set_self (List.getElem?_eq_some_iff.mp hr).1] at hr'
      cases hr'
      exact ⟨rfl, rfl⟩
    · rw [List.getElem?_set_ne hk, hr] at hr'
      cases hr'
      rw [h1] at h2
      cases h2
  unfold resetUnit at h
  split at h
  · cases h
  · rename_i v hv
    simp only at h
    split at h
    · split at h
      · cases h
      · split at h
        · cases h; exact key v hv rfl
        · split at h
          · cases h; exact key v hv rfl
          · cases h
    · cases h; exact key v hv rfl

end Sys2Proof.Machine
end

