-- ==== Sys2Proof/Laws/HostProgram.lean ====
section
/-! SUPPORT. Runs of several steps, host names, and the bits of a host number (R77, R78). -/

namespace Sys2Proof.Machine

open Sys2Proof

/-- A run goes on from its first step. -/
theorem run_succ {n : Nat} {s s' : State} (h : step s = .next s') :
    Host.Core.run Sys2Proof.core (n + 1) s = Host.Core.run Sys2Proof.core n s' := by
  have h' : Sys2Proof.core.step s = .next s' := h
  simp only [Host.Core.run, h']

theorem lookupVar_filter (vs : List (Var × Int)) {x y : Var} (h : y ≠ x) :
    lookupVar (vs.filter (fun p => p.1 != x)) y = lookupVar vs y := by
  induction vs with
  | nil => rfl
  | cons p vs ih =>
    obtain ⟨z, w⟩ := p
    by_cases hz : z = x
    · subst hz
      simp [h, lookupVar, ih]
    · simp [hz, lookupVar, ih]

/-- A name just bound has its value; every other name keeps its own (R77). -/
theorem lookupVar_bindVar (vs : List (Var × Int)) (x : Var) (v : Int) (y : Var) :
    lookupVar (bindVar vs x v) y = if y = x then some v else lookupVar vs y := by
  unfold bindVar
  rw [lookupVar]
  split
  · rfl
  · exact lookupVar_filter vs (by assumption)

/-- Reduction modulo a power of two keeps the bits below it. -/
theorem emod_two_pow_bit (x : Int) {k w : Nat} (hk : k < w) : (x % 2 ^ w) / 2 ^ k % 2 = x / 2 ^ k % 2 := by
  have hp : (2 : Int) ^ k ≠ 0 := by positivity
  have e : (2 : Int) ^ w = 2 ^ k * 2 * 2 ^ (w - k - 1) := by
    rw [mul_assoc, ← pow_succ', ← pow_add]
    congr 1
    omega
  have e2 : x % 2 ^ w = x + 2 ^ k * (2 * (-(2 ^ (w - k - 1) * (x / 2 ^ w)))) := by
    rw [Int.emod_def]
    nth_rw 1 [e]
    ring
  rw [e2, Int.add_mul_ediv_left _ _ hp, Int.add_mul_emod_self_left]

/-- Bit `k` of the pattern of a host number, at any width above `k` (R77). -/
theorem ofInt_bit (v : Int) {w k : Nat} (hk : k < w) :
    (BitVec.ofInt w v).getLsbD k = decide (v / 2 ^ k % 2 = 1) := by
  simp only [BitVec.getLsbD, BitVec.toNat_ofInt]
  rw [Nat.testBit_eq_decide_div_mod_eq]
  congr 1
  have h3 : 0 ≤ v % ((2 ^ w : Nat) : Int) := Int.emod_nonneg _ (by positivity)
  have h1 : (((v % ((2 ^ w : Nat) : Int)).toNat / 2 ^ k % 2 : Nat) : Int) = v / 2 ^ k % 2 := by
    push_cast
    rw [Int.toNat_of_nonneg (by push_cast at h3; exact h3), emod_two_pow_bit v hk]
  apply propext
  rw [← h1]
  norm_cast

/-- The word `v[lo+31:lo]` holds the bits of `v` from `lo` on (R8, R78). -/
theorem hostSlice_word_bits (v : Int) (lo : Nat) {k w : Nat} (hk : k < 32) (hw : lo + k < w) :
    (BitVec.ofInt 32 (hostSlice (lo + 31) lo v)).getLsbD k = (BitVec.ofInt w v).getLsbD (lo + k) := by
  rw [ofInt_bit _ hk, ofInt_bit _ hw]
  have e1 : lo + 31 + 1 - lo = 32 := by omega
  rw [hostSlice, e1, emod_two_pow_bit _ hk, pow_add, Int.ediv_ediv_of_nonneg (by positivity)]

end Sys2Proof.Machine
end

