-- ==== Sys2Proof/Laws/PerInstr.lean ====
section
/-! SUPPORT. The statements made instruction by instruction: every command is well formed, and the decoder reads its word
back (R74). -/

namespace Sys2Proof.Laws.RoundTrip

open Sys2Proof

/-- The command's fields are those of a legal word, its word fits in the table's 32 bits, and the decoder reads it back. -/
def Statement (i : Instr) : Prop :=
  i.wf = true ∧ decode (encode i) = .ok i ∧ decodeTableWord 32 (encode i).toNat = some i

theorem unpackBool : Statement .unpackBool := ⟨rfl, rfl, rfl⟩

theorem packBool : Statement .packBool := ⟨rfl, rfl, rfl⟩

theorem unpackU8 : Statement .unpackU8 := ⟨rfl, rfl, rfl⟩

theorem packU8 : Statement .packU8 := ⟨rfl, rfl, rfl⟩

theorem unpackU16 : Statement .unpackU16 := ⟨rfl, rfl, rfl⟩

theorem packU16 : Statement .packU16 := ⟨rfl, rfl, rfl⟩

theorem unpackU32 : Statement .unpackU32 := ⟨rfl, rfl, rfl⟩

theorem packU32 : Statement .packU32 := ⟨rfl, rfl, rfl⟩

theorem unpackU64 : Statement .unpackU64 := ⟨rfl, rfl, rfl⟩

theorem packU64 : Statement .packU64 := ⟨rfl, rfl, rfl⟩

theorem unpackU128 : Statement .unpackU128 := ⟨rfl, rfl, rfl⟩

theorem packU128 : Statement .packU128 := ⟨rfl, rfl, rfl⟩

theorem unpackUptr : Statement .unpackUptr := ⟨rfl, rfl, rfl⟩

theorem packUptr : Statement .packUptr := ⟨rfl, rfl, rfl⟩

theorem unpackI8 : Statement .unpackI8 := ⟨rfl, rfl, rfl⟩

theorem packI8 : Statement .packI8 := ⟨rfl, rfl, rfl⟩

theorem unpackI16 : Statement .unpackI16 := ⟨rfl, rfl, rfl⟩

theorem packI16 : Statement .packI16 := ⟨rfl, rfl, rfl⟩

theorem unpackI32 : Statement .unpackI32 := ⟨rfl, rfl, rfl⟩

theorem packI32 : Statement .packI32 := ⟨rfl, rfl, rfl⟩

theorem unpackI64 : Statement .unpackI64 := ⟨rfl, rfl, rfl⟩

theorem packI64 : Statement .packI64 := ⟨rfl, rfl, rfl⟩

theorem unpackI128 : Statement .unpackI128 := ⟨rfl, rfl, rfl⟩

theorem packI128 : Statement .packI128 := ⟨rfl, rfl, rfl⟩

theorem unpackIptr : Statement .unpackIptr := ⟨rfl, rfl, rfl⟩

theorem packIptr : Statement .packIptr := ⟨rfl, rfl, rfl⟩

end Sys2Proof.Laws.RoundTrip
end

