-- ==== Sys2Proof/Tests/Slice0.lean ====
section
/-! SUPPORT. Tests: ill-formed terms refused, the words of R74 written out, the worked examples and vectors of the spec (one
step each), and for every obligation with hypotheses a concrete state that meets them. The source of each expected value is
named; none is the model's own answer. -/

namespace Sys2Proof.Tests

open Sys2Proof Sys2Proof.Machine

/-! ## Small states -/

/-- The bytes `bs` from address `a` on. -/
def bytesAt (a : Nat) : List Byte → Memory
  | [] => []
  | b :: bs => Memory.write (bytesAt (a + 1) bs) a b

/-- An idle unit as the vectors of 95_test_vectors.md set it up: BASE = 0x100. -/
def unitWith (p : PtrWidth) (len off : Nat) (data : Data) : PkuUnit :=
  { PkuUnit.ofReset p 0 with
    off := BitVec.ofNat 64 off, base := 0x100#64, len := BitVec.ofNat 64 len, data := data }

/-- One idle unit, `bs` in its buffer, LEN their number, ADDRW = 32. -/
def idle (p : PtrWidth) (bs : List Byte) (off : Nat) (data : Data) : State :=
  { State.reset with mem := bytesAt 0x100 bs, units := [unitWith p bs.length off data] }

/-- The unit with the command `i` accepted. -/
def accepted (i : Instr) (r : PkuUnit) : PkuUnit := (r.store (encode i)).accept

/-- The same state with the command `i` accepted. -/
def busy (i : Instr) (p : PtrWidth) (bs : List Byte) (off : Nat) (data : Data) : State :=
  { State.reset with mem := bytesAt 0x100 bs, units := [accepted i (unitWith p bs.length off data)] }

/-- The `n` bytes of the buffer after a step. -/
def bufAfter (n : Nat) : Host.Outcome State Fault Refusal → List Byte
  | .next s => (List.range n).map fun i => Memory.read s.mem (0x100 + i)
  | _ => []

/-- A field of the first unit after a step. -/
def unitAfter {α : Type} (f : PkuUnit → α) : Host.Outcome State Fault Refusal → Option α
  | .next s => s.units.head?.map f
  | _ => none

/-- DATA after a step. -/
def dataAfter : Host.Outcome State Fault Refusal → Option Data := unitAfter PkuUnit.data

/-- STATUS after a step. -/
def statusAfter : Host.Outcome State Fault Refusal → Option Word := unitAfter fun r => r.status.toWord

/-- The command `i` performed on a buffer `bs`. -/
def perform (i : Instr) (p : PtrWidth) (bs : List Byte) (off : Nat) (data : Data) :
    Host.Outcome State Fault Refusal := exec i (busy i p bs off data)

/-- A CMD write of `w` with OFF, LEN, BASE and ADDRW as given (table T9). -/
def issueWith (addrw base len off : Nat) (w : Word) : Host.Outcome State Fault Refusal :=
  busAccess (.regWrite 4 .word w)
    { State.reset with
      addrw := addrw
      units := [{ PkuUnit.ofReset .p32 0 with
        off := BitVec.ofNat 64 off, base := BitVec.ofNat 64 base, len := BitVec.ofNat 64 len }] }

/-! ## Well-formedness: a term that each check refuses -/

/-- R70: OP = 0b00 is reserved. -/
theorem test_wf_op00 : (CmdFields.mk 0b00#2 0b001#3 0#1 0#26).wf = false := by decide

/-- R70: OP = 0b11 is reserved. -/
theorem test_wf_op11 : (CmdFields.mk 0b11#2 0b001#3 0#1 0#26).opLegal = false := by decide

/-- R72: WC = 0b111 is reserved. -/
theorem test_wf_wc111 : (CmdFields.mk 0b01#2 0b111#3 0#1 0#26).wcLegal = false := by decide

/-- R72: there is no signed boolean. -/
theorem test_wf_signed_bool : (CmdFields.mk 0b01#2 0b000#3 1#1 0#26).signLegal = false := by decide

/-- R70: Z must be zero. -/
theorem test_wf_z : (CmdFields.mk 0b01#2 0b001#3 0#1 1#26).zLegal = false := by decide

/-- R6: ADDRW is 1 to 64. -/
theorem test_wf_addrw : addrwLegal 0 = false ∧ addrwLegal 65 = false ∧ addrwLegal 64 = true := by decide

/-- R6: REGBASE is 64-byte aligned. -/
theorem test_wf_regbase : regbaseLegal 0x20 = false ∧ regbaseLegal 0x40 = true := by decide

/-- R203: the tail of a tuple is a tuple. -/
theorem test_wf_tail : (Ty.cons (.prim .u8) (.prim .u8)).wf = false := by decide

/-- R77: a jump needs its label, defined once. -/
theorem test_wf_label : progWf 1 [.ifGoto (.lit 0) .eq (.lit 0) 7] = false ∧
    progWf 1 [.label 7, .label 7, .ifGoto (.lit 0) .eq (.lit 0) 7] = false := by decide

/-- R6: a statement names a unit that exists. -/
theorem test_wf_unit : progWf 1 [.wait 1] = false ∧ progWf 1 [.wait 0] = true := by decide

/-! ## Decoding: the words of R74, written out as Z ++ S ++ WC ++ OP (R70) -/

theorem test_decode_unpack_Bool : decode (0#26 ++ 0#1 ++ 0b000#3 ++ 0b01#2) = .ok .unpackBool ∧
    decode 0x00000001#32 = .ok .unpackBool := by decide

theorem test_decode_pack_Bool : decode (0#26 ++ 0#1 ++ 0b000#3 ++ 0b10#2) = .ok .packBool ∧
    decode 0x00000002#32 = .ok .packBool := by decide

theorem test_decode_unpack_U8 : decode (0#26 ++ 0#1 ++ 0b001#3 ++ 0b01#2) = .ok .unpackU8 ∧
    decode 0x00000005#32 = .ok .unpackU8 := by decide

theorem test_decode_pack_U8 : decode (0#26 ++ 0#1 ++ 0b001#3 ++ 0b10#2) = .ok .packU8 ∧
    decode 0x00000006#32 = .ok .packU8 := by decide

theorem test_decode_unpack_U16 : decode (0#26 ++ 0#1 ++ 0b010#3 ++ 0b01#2) = .ok .unpackU16 ∧
    decode 0x00000009#32 = .ok .unpackU16 := by decide

theorem test_decode_pack_U16 : decode (0#26 ++ 0#1 ++ 0b010#3 ++ 0b10#2) = .ok .packU16 ∧
    decode 0x0000000A#32 = .ok .packU16 := by decide

theorem test_decode_unpack_U32 : decode (0#26 ++ 0#1 ++ 0b011#3 ++ 0b01#2) = .ok .unpackU32 ∧
    decode 0x0000000D#32 = .ok .unpackU32 := by decide

theorem test_decode_pack_U32 : decode (0#26 ++ 0#1 ++ 0b011#3 ++ 0b10#2) = .ok .packU32 ∧
    decode 0x0000000E#32 = .ok .packU32 := by decide

theorem test_decode_unpack_U64 : decode (0#26 ++ 0#1 ++ 0b100#3 ++ 0b01#2) = .ok .unpackU64 ∧
    decode 0x00000011#32 = .ok .unpackU64 := by decide

theorem test_decode_pack_U64 : decode (0#26 ++ 0#1 ++ 0b100#3 ++ 0b10#2) = .ok .packU64 ∧
    decode 0x00000012#32 = .ok .packU64 := by decide

theorem test_decode_unpack_U128 : decode (0#26 ++ 0#1 ++ 0b101#3 ++ 0b01#2) = .ok .unpackU128 ∧
    decode 0x00000015#32 = .ok .unpackU128 := by decide

theorem test_decode_pack_U128 : decode (0#26 ++ 0#1 ++ 0b101#3 ++ 0b10#2) = .ok .packU128 ∧
    decode 0x00000016#32 = .ok .packU128 := by decide

theorem test_decode_unpack_Uptr : decode (0#26 ++ 0#1 ++ 0b110#3 ++ 0b01#2) = .ok .unpackUptr ∧
    decode 0x00000019#32 = .ok .unpackUptr := by decide

theorem test_decode_pack_Uptr : decode (0#26 ++ 0#1 ++ 0b110#3 ++ 0b10#2) = .ok .packUptr ∧
    decode 0x0000001A#32 = .ok .packUptr := by decide

theorem test_decode_unpack_I8 : decode (0#26 ++ 1#1 ++ 0b001#3 ++ 0b01#2) = .ok .unpackI8 ∧
    decode 0x00000025#32 = .ok .unpackI8 := by decide

theorem test_decode_pack_I8 : decode (0#26 ++ 1#1 ++ 0b001#3 ++ 0b10#2) = .ok .packI8 ∧
    decode 0x00000026#32 = .ok .packI8 := by decide

theorem test_decode_unpack_I16 : decode (0#26 ++ 1#1 ++ 0b010#3 ++ 0b01#2) = .ok .unpackI16 ∧
    decode 0x00000029#32 = .ok .unpackI16 := by decide

theorem test_decode_pack_I16 : decode (0#26 ++ 1#1 ++ 0b010#3 ++ 0b10#2) = .ok .packI16 ∧
    decode 0x0000002A#32 = .ok .packI16 := by decide

theorem test_decode_unpack_I32 : decode (0#26 ++ 1#1 ++ 0b011#3 ++ 0b01#2) = .ok .unpackI32 ∧
    decode 0x0000002D#32 = .ok .unpackI32 := by decide

theorem test_decode_pack_I32 : decode (0#26 ++ 1#1 ++ 0b011#3 ++ 0b10#2) = .ok .packI32 ∧
    decode 0x0000002E#32 = .ok .packI32 := by decide

theorem test_decode_unpack_I64 : decode (0#26 ++ 1#1 ++ 0b100#3 ++ 0b01#2) = .ok .unpackI64 ∧
    decode 0x00000031#32 = .ok .unpackI64 := by decide

theorem test_decode_pack_I64 : decode (0#26 ++ 1#1 ++ 0b100#3 ++ 0b10#2) = .ok .packI64 ∧
    decode 0x00000032#32 = .ok .packI64 := by decide

theorem test_decode_unpack_I128 : decode (0#26 ++ 1#1 ++ 0b101#3 ++ 0b01#2) = .ok .unpackI128 ∧
    decode 0x00000035#32 = .ok .unpackI128 := by decide

theorem test_decode_pack_I128 : decode (0#26 ++ 1#1 ++ 0b101#3 ++ 0b10#2) = .ok .packI128 ∧
    decode 0x00000036#32 = .ok .packI128 := by decide

theorem test_decode_unpack_Iptr : decode (0#26 ++ 1#1 ++ 0b110#3 ++ 0b01#2) = .ok .unpackIptr ∧
    decode 0x00000039#32 = .ok .unpackIptr := by decide

theorem test_decode_pack_Iptr : decode (0#26 ++ 1#1 ++ 0b110#3 ++ 0b10#2) = .ok .packIptr ∧
    decode 0x0000003A#32 = .ok .packIptr := by decide

/-- Table T9, F12, F13, F20: OP = 00 and OP = 11. -/
theorem test_decode_op : decode 0x00000000#32 = .error .reservedOp ∧ decode 0x00000003#32 = .error .reservedOp ∧
    decode 0x0000003B#32 = .error .reservedOp := by decide

/-- Table T9, F14, F15: WC = 111. -/
theorem test_decode_wc : decode 0x0000001D#32 = .error .reservedWidth ∧
    decode 0x0000001E#32 = .error .reservedWidth := by decide

/-- Table T9, F16: signed BOOL. -/
theorem test_decode_signed_bool : decode 0x00000021#32 = .error .signedBool ∧
    decode 0x00000022#32 = .error .signedBool := by decide

/-- Table T9, F17, F18, F19: a bit of Z. -/
theorem test_decode_z : decode 0x00000045#32 = .error .reservedZ ∧ decode 0x40000009#32 = .error .reservedZ ∧
    decode 0xFFFFFFFF#32 = .error .reservedZ := by decide

/-! ## Commands: the examples of the rules and the vectors of 95_test_vectors.md -/

/-- R120: bit 3 of 0x10, every other bit of DATA cleared (T2). -/
theorem test_unpack_Bool : dataAfter (perform .unpackBool .p32 [0x10#8] 3 0xFFFFFFFFFFFFFFFFFFFFFFFFFFFFFFFF#128) = some 0x1#128 := by
  decide

/-- R120: bit 4 of 0x10. -/
theorem test_unpack_Bool_clear : dataAfter (perform .unpackBool .p32 [0x10#8] 4 0x0#128) = some 0x0#128 := by
  decide

/-- R121: 0xFF, OFF = 5, DATA = 0. -/
theorem test_pack_Bool : bufAfter 1 (perform .packBool .p32 [0xFF#8] 5 0x0#128) =
    [0xFB#8] := by decide

/-- R121, T2: OFF = 9, DATA = 1; only DATA[0] is the value. -/
theorem test_pack_Bool_second : bufAfter 2 (perform .packBool .p32 [0x00#8, 0x00#8] 9 0x3#128) =
    [0x00#8, 0x40#8] := by decide

/-- R132: 0A BC at 4. -/
theorem test_unpack_U8 : dataAfter (perform .unpackU8 .p32 [0x0A#8, 0xBC#8] 4 0xFFFFFFFFFFFFFFFFFFFFFFFFFFFFFFFF#128) = some 0xAB#128 := by
  decide

/-- T8: C0 00 at 1 is 0x80, zero-extended. -/
theorem test_unpack_U8_signbit : dataAfter (perform .unpackU8 .p32 [0xC0#8, 0x00#8] 1 0x0#128) = some 0x80#128 := by
  decide

/-- R133: FF FF at 4, DATA = 0. -/
theorem test_pack_U8 : bufAfter 2 (perform .packU8 .p32 [0xFF#8, 0xFF#8] 4 0x0#128) =
    [0xF0#8, 0x0F#8] := by decide

/-- T7: only DATA[7:0] of 0xABCD. -/
theorem test_pack_U8_low : bufAfter 2 (perform .packU8 .p32 [0x00#8, 0x00#8] 4 0xABCD#128) =
    [0x0C#8, 0xD0#8] := by decide

/-- R134, X2: the document's vector. -/
theorem test_unpack_U16 : dataAfter (perform .unpackU16 .p32 [0x00#8, 0x05#8, 0x40#8] 3 0x0#128) = some 0x2A#128 := by
  decide

/-- T7: FF FF FF at 4, DATA all ones before. -/
theorem test_unpack_U16_zext : dataAfter (perform .unpackU16 .p32 [0xFF#8, 0xFF#8, 0xFF#8] 4 0xFFFFFFFFFFFFFFFFFFFFFFFFFFFFFFFF#128) = some 0xFFFF#128 := by
  decide

/-- R135, X1: the document's normative vector. -/
theorem test_pack_U16 : bufAfter 3 (perform .packU16 .p32 [0x00#8, 0x00#8, 0x00#8] 3 0x2A#128) =
    [0x00#8, 0x05#8, 0x40#8] := by decide

/-- T5: 0xBEEF at 9. -/
theorem test_pack_U16_at16 : bufAfter 5 (perform .packU16 .p32 [0x00#8, 0x00#8, 0x00#8, 0x00#8, 0x00#8] 9 0xBEEF#128) =
    [0x00#8, 0x5F#8, 0x77#8, 0x80#8, 0x00#8] := by decide

/-- R136: 01 23 45 67 80 at 4. -/
theorem test_unpack_U32 : dataAfter (perform .unpackU32 .p32 [0x01#8, 0x23#8, 0x45#8, 0x67#8, 0x80#8] 4 0x0#128) = some 0x12345678#128 := by
  decide

/-- T6: FF x 7 at 13. -/
theorem test_pack_U32 : bufAfter 7 (perform .packU32 .p32 [0xFF#8, 0xFF#8, 0xFF#8, 0xFF#8, 0xFF#8, 0xFF#8, 0xFF#8] 13 0x12345678#128) =
    [0xFF#8, 0xF8#8, 0x91#8, 0xA2#8, 0xB3#8, 0xC7#8, 0xFF#8] := by decide

/-- T6, X4: FF x 7 at 8. -/
theorem test_pack_U32_aligned : bufAfter 7 (perform .packU32 .p32 [0xFF#8, 0xFF#8, 0xFF#8, 0xFF#8, 0xFF#8, 0xFF#8, 0xFF#8] 8 0x12345678#128) =
    [0xFF#8, 0x12#8, 0x34#8, 0x56#8, 0x78#8, 0xFF#8, 0xFF#8] := by decide

/-- R138: 40 00 .. 80 at 1. -/
theorem test_unpack_U64 : dataAfter (perform .unpackU64 .p32 [0x40#8, 0x00#8, 0x00#8, 0x00#8, 0x00#8, 0x00#8, 0x00#8, 0x00#8, 0x80#8] 1 0x0#128) = some 0x8000000000000001#128 := by
  decide +kernel

/-- T6: 00 x 10 at 9. -/
theorem test_pack_U64 : bufAfter 10 (perform .packU64 .p32 [0x00#8, 0x00#8, 0x00#8, 0x00#8, 0x00#8, 0x00#8, 0x00#8, 0x00#8, 0x00#8, 0x00#8] 9 0x123456789ABCDEF#128) =
    [0x00#8, 0x00#8, 0x91#8, 0xA2#8, 0xB3#8, 0xC4#8, 0xD5#8, 0xE6#8, 0xF7#8, 0x80#8] := by decide

/-- T6: 01 02 .. 11 at 7. -/
theorem test_unpack_U128 : dataAfter (perform .unpackU128 .p32 [0x01#8, 0x02#8, 0x03#8, 0x04#8, 0x05#8, 0x06#8, 0x07#8, 0x08#8, 0x09#8, 0x0A#8, 0x0B#8, 0x0C#8, 0x0D#8, 0x0E#8, 0x0F#8, 0x10#8, 0x11#8] 7 0x0#128) = some 0x81018202830384048505860687078808#128 := by
  decide +kernel

/-- T6: FF x 18 at 5. -/
theorem test_pack_U128 : bufAfter 18 (perform .packU128 .p32 [0xFF#8, 0xFF#8, 0xFF#8, 0xFF#8, 0xFF#8, 0xFF#8, 0xFF#8, 0xFF#8, 0xFF#8, 0xFF#8, 0xFF#8, 0xFF#8, 0xFF#8, 0xFF#8, 0xFF#8, 0xFF#8, 0xFF#8, 0xFF#8] 5 0x112233445566778899AABBCCDDEEFF#128) =
    [0xF8#8, 0x00#8, 0x89#8, 0x11#8, 0x9A#8, 0x22#8, 0xAB#8, 0x33#8, 0xBC#8, 0x44#8, 0xCD#8, 0x55#8, 0xDE#8, 0x66#8, 0xEF#8, 0x77#8, 0xFF#8, 0xFF#8] := by decide

/-- T7: PTRW = 16, AB CD EF at 4. -/
theorem test_unpack_Uptr16 : dataAfter (perform .unpackUptr .p16 [0xAB#8, 0xCD#8, 0xEF#8] 4 0x0#128) = some 0xBCDE#128 := by
  decide

/-- T7: PTRW = 32, 00 0D EA DB EE F0 at 12. -/
theorem test_unpack_Uptr32 : dataAfter (perform .unpackUptr .p32 [0x00#8, 0x0D#8, 0xEA#8, 0xDB#8, 0xEE#8, 0xF0#8] 12 0x0#128) = some 0xDEADBEEF#128 := by
  decide

/-- T7: PTRW = 64, FF x 9 at 4, DATA = 0. -/
theorem test_pack_Uptr64 : bufAfter 9 (perform .packUptr .p64 [0xFF#8, 0xFF#8, 0xFF#8, 0xFF#8, 0xFF#8, 0xFF#8, 0xFF#8, 0xFF#8, 0xFF#8] 4 0x0#128) =
    [0xF0#8, 0x00#8, 0x00#8, 0x00#8, 0x00#8, 0x00#8, 0x00#8, 0x00#8, 0x0F#8] := by decide

/-- T7: PTRW = 16, 00 x 3 at 1. -/
theorem test_pack_Uptr16 : bufAfter 3 (perform .packUptr .p16 [0x00#8, 0x00#8, 0x00#8] 1 0xFFFF#128) =
    [0x7F#8, 0xFF#8, 0x80#8] := by decide

/-- T8: 80 at 0 is -128. -/
theorem test_unpack_I8 : dataAfter (perform .unpackI8 .p32 [0x80#8] 0 0x0#128) = some 0xFFFFFFFFFFFFFFFFFFFFFFFFFFFFFF80#128 := by
  decide

/-- R152, T8: 07 F0 at 4 is 127. -/
theorem test_unpack_I8_positive : dataAfter (perform .unpackI8 .p32 [0x07#8, 0xF0#8] 4 0xFFFFFFFFFFFFFFFFFFFFFFFFFFFFFFFF#128) = some 0x7F#128 := by
  decide

/-- R151, T8: -1 at 3. -/
theorem test_pack_I8 : bufAfter 2 (perform .packI8 .p32 [0x00#8, 0x00#8] 3 0xFFFFFFFFFFFFFFFFFFFFFFFFFFFFFFFF#128) =
    [0x1F#8, 0xE0#8] := by decide

/-- T8: 1F FA C0 at 3 is -42. -/
theorem test_unpack_I16 : dataAfter (perform .unpackI16 .p32 [0x1F#8, 0xFA#8, 0xC0#8] 3 0x0#128) = some 0xFFFFFFFFFFFFFFFFFFFFFFFFFFFFFFD6#128 := by
  decide

/-- T8: -32768 at 5. -/
theorem test_pack_I16 : bufAfter 3 (perform .packI16 .p32 [0x00#8, 0x00#8, 0x00#8] 5 0xFFFFFFFFFFFFFFFFFFFFFFFFFFFF8000#128) =
    [0x04#8, 0x00#8, 0x00#8] := by decide

/-- T8: DATA[127:16] ignored. -/
theorem test_pack_I16_low : bufAfter 2 (perform .packI16 .p32 [0x00#8, 0x00#8] 0 0x12345#128) =
    [0x23#8, 0x45#8] := by decide

/-- T8: AA AF FF FF FF BA at 12 is -5. -/
theorem test_unpack_I32 : dataAfter (perform .unpackI32 .p32 [0xAA#8, 0xAF#8, 0xFF#8, 0xFF#8, 0xFF#8, 0xBA#8] 12 0x0#128) = some 0xFFFFFFFFFFFFFFFFFFFFFFFFFFFFFFFB#128 := by
  decide

/-- T8: -5 at 12 on an AA background. -/
theorem test_pack_I32 : bufAfter 6 (perform .packI32 .p32 [0xAA#8, 0xAA#8, 0xAA#8, 0xAA#8, 0xAA#8, 0xAA#8] 12 0xFFFFFFFFFFFFFFFFFFFFFFFFFFFFFFFB#128) =
    [0xAA#8, 0xAF#8, 0xFF#8, 0xFF#8, 0xFF#8, 0xBA#8] := by decide

/-- T8: 80 00 .. 00 at 0 is -2^63. -/
theorem test_unpack_I64 : dataAfter (perform .unpackI64 .p32 [0x80#8, 0x00#8, 0x00#8, 0x00#8, 0x00#8, 0x00#8, 0x00#8, 0x00#8] 0 0x0#128) = some 0xFFFFFFFFFFFFFFFF8000000000000000#128 := by
  decide +kernel

/-- T8: -2^63 at 5. -/
theorem test_pack_I64 : bufAfter 9 (perform .packI64 .p32 [0x00#8, 0x00#8, 0x00#8, 0x00#8, 0x00#8, 0x00#8, 0x00#8, 0x00#8, 0x00#8] 5 0xFFFFFFFFFFFFFFFF8000000000000000#128) =
    [0x04#8, 0x00#8, 0x00#8, 0x00#8, 0x00#8, 0x00#8, 0x00#8, 0x00#8, 0x00#8] := by decide

/-- T8: 7F FF x 15 80 at 1 is -1. -/
theorem test_unpack_I128 : dataAfter (perform .unpackI128 .p32 [0x7F#8, 0xFF#8, 0xFF#8, 0xFF#8, 0xFF#8, 0xFF#8, 0xFF#8, 0xFF#8, 0xFF#8, 0xFF#8, 0xFF#8, 0xFF#8, 0xFF#8, 0xFF#8, 0xFF#8, 0xFF#8, 0x80#8] 1 0x0#128) = some 0xFFFFFFFFFFFFFFFFFFFFFFFFFFFFFFFF#128 := by
  decide +kernel

/-- T8: -2^127 at 3. -/
theorem test_pack_I128 : bufAfter 17 (perform .packI128 .p32 [0x00#8, 0x00#8, 0x00#8, 0x00#8, 0x00#8, 0x00#8, 0x00#8, 0x00#8, 0x00#8, 0x00#8, 0x00#8, 0x00#8, 0x00#8, 0x00#8, 0x00#8, 0x00#8, 0x00#8] 3 0x80000000000000000000000000000000#128) =
    [0x10#8, 0x00#8, 0x00#8, 0x00#8, 0x00#8, 0x00#8, 0x00#8, 0x00#8, 0x00#8, 0x00#8, 0x00#8, 0x00#8, 0x00#8, 0x00#8, 0x00#8, 0x00#8, 0x00#8] := by decide

/-- T8: PTRW = 16, 20 00 00 at 2 is -32768. -/
theorem test_unpack_Iptr16 : dataAfter (perform .unpackIptr .p16 [0x20#8, 0x00#8, 0x00#8] 2 0x0#128) = some 0xFFFFFFFFFFFFFFFFFFFFFFFFFFFF8000#128 := by
  decide

/-- T8: PTRW = 64, 7F FF x 7 80 at 1 is -1. -/
theorem test_unpack_Iptr64 : dataAfter (perform .unpackIptr .p64 [0x7F#8, 0xFF#8, 0xFF#8, 0xFF#8, 0xFF#8, 0xFF#8, 0xFF#8, 0xFF#8, 0x80#8] 1 0x0#128) = some 0xFFFFFFFFFFFFFFFFFFFFFFFFFFFFFFFF#128 := by
  decide +kernel

/-- T8: PTRW = 32, -3 at 6. -/
theorem test_pack_Iptr32 : bufAfter 5 (perform .packIptr .p32 [0x00#8, 0x00#8, 0x00#8, 0x00#8, 0x00#8] 6 0xFFFFFFFFFFFFFFFFFFFFFFFFFFFFFFFD#128) =
    [0x03#8, 0xFF#8, 0xFF#8, 0xFF#8, 0xF4#8] := by decide

/-- T8: PTRW = 64, -1 at 7. -/
theorem test_pack_Iptr64 : bufAfter 9 (perform .packIptr .p64 [0x00#8, 0x00#8, 0x00#8, 0x00#8, 0x00#8, 0x00#8, 0x00#8, 0x00#8, 0x00#8] 7 0xFFFFFFFFFFFFFFFFFFFFFFFFFFFFFFFF#128) =
    [0x01#8, 0xFF#8, 0xFF#8, 0xFF#8, 0xFF#8, 0xFF#8, 0xFF#8, 0xFF#8, 0xFE#8] := by decide

/-! ## Issue, faults and registers (tables T9, T10) -/

/-- F1: accepted at the capacity edge; F2: one past it. -/
theorem test_issue_capacity : statusAfter (issueWith 32 0x100 2 0 0x09#32) = some 0x01#32 ∧
    statusAfter (issueWith 32 0x100 2 1 0x09#32) = some 0x04#32 := by decide

/-- F5, F6: the sums are on unbounded integers. -/
theorem test_issue_unbounded :
    statusAfter (issueWith 64 0 (2 ^ 61) (2 ^ 64 - 1) 0x01#32) = some 0x01#32 ∧
    statusAfter (issueWith 64 0 (2 ^ 61) (2 ^ 64 - 1) 0x05#32) = some 0x04#32 := by decide

/-- F7, F8: the window may end at the top of Mem and not one byte above. -/
theorem test_issue_window : statusAfter (issueWith 16 0xFFFE 2 0 0x01#32) = some 0x01#32 ∧
    statusAfter (issueWith 16 0xFFFE 3 0 0x01#32) = some 0x10#32 := by decide

/-- F10, F11: ECAP before EWRAP. F12: EILL before ECAP. -/
theorem test_issue_priority : statusAfter (issueWith 16 0xFFFE 3 0 0x0D#32) = some 0x04#32 ∧
    statusAfter (issueWith 16 0x10000 0 0 0x01#32) = some 0x04#32 ∧
    statusAfter (issueWith 32 0x100 0 0 0x00#32) = some 0x08#32 := by decide

/-- F2, F13: CMD keeps the faulting word, legal or not. -/
theorem test_issue_cmd : unitAfter PkuUnit.cmd (issueWith 32 0x100 2 1 0x09#32) = some 0x09#32 ∧
    unitAfter PkuUnit.cmd (issueWith 32 0x100 0 0 0x03#32) = some 0x03#32 := by decide

/-- A halted unit (ECAP), as H1 leaves it. -/
def halted : State :=
  { State.reset with units := [{ PkuUnit.ofReset .p32 0 with
      cmd := 0x05#32, status := Status.reset.raise .ecap }] }

/-- H1: the second CMD write is ignored. -/
theorem test_halted_ignores : busAccess (.regWrite 4 .word 0x06#32) halted = .next halted := rfl

/-- H2: BUSY is read-only; writing 1 to ECAP clears it. -/
theorem test_w1c : statusAfter (busAccess (.regWrite 8 .word 0x01#32) halted) = some 0x04#32 ∧
    statusAfter (busAccess (.regWrite 8 .word 0x04#32) halted) = some 0x00#32 := by decide

/-- H3: a write to OFF while busy is lost and sets EBUSY. -/
theorem test_busy_write :
    statusAfter (busAccess (.regWrite 0x10 .word 4#32) (busy .unpackU8 .p32 [0xAB#8] 0 0#128)) = some 0x21#32 ∧
    unitAfter PkuUnit.off (busAccess (.regWrite 0x10 .word 4#32) (busy .unpackU8 .p32 [0xAB#8] 0 0#128)) =
      some 0#64 := by decide

/-- H6: CFG for (16, 16), (32, 32), (64, 48) and (64, 64). -/
theorem test_cfg : cfgWord 16 .p16 = 0x00001002#32 ∧ cfgWord 32 .p32 = 0x00002003#32 ∧
    cfgWord 48 .p64 = 0x00003004#32 ∧ cfgWord 64 .p64 = 0x00004004#32 := by decide

/-- H8: a 16-bit write to OFF_LO and a 32-bit write at offset 0x11 do nothing. -/
theorem test_not_decoded : busAccess (.regWrite 0x10 .half 5#32) State.reset = .next State.reset ∧
    busAccess (.regWrite 0x11 .word 5#32) State.reset = .next State.reset := ⟨rfl, rfl⟩

/-- R60, R234: a host address outside every block is the platform's (log 11). -/
theorem test_outside_blocks : busAccess (.regWrite 0x40 .word 5#32) State.reset =
    .refused .outsideRegisterBlocks := rfl

/-- R37: CMD, OFF, BASE, LEN, DATA and STATUS are zero after reset. -/
theorem test_reset : State.reset.units.map (fun r => (r.cmd, r.status.toWord, r.off, r.base, r.len, r.data)) =
    [(0#32, 0#32, 0#64, 0#64, 0#64, 0#128)] := by decide

/-- R112: a placed word is performed by the very next step (log 7). -/
theorem test_withFetchWord : statusAfter (step (State.reset.withFetchWord 32 0x0A)) = some 0x02#32 := by
  decide

/-! ## Composites and host notation (T11, R78) -/

/-- T11: (BOOL, U8, I16, U32) at 5. -/
theorem test_leaves_tuple : tyLeaves .p32 (tupleOf [.prim .bool, .prim .u8, .prim .i16, .prim .u32]) 5 =
    [(5, .bool), (6, .u8), (14, .i16), (30, .u32)] ∧
    tyWidth .p32 (tupleOf [.prim .bool, .prim .u8, .prim .i16, .prim .u32]) = 57 := by decide

/-- T11: ((BOOL, BOOL), [U16; 2]) at 0 and [U8; 3] at 4. -/
theorem test_leaves_nested :
    tyLeaves .p32 (tupleOf [tupleOf [.prim .bool, .prim .bool], .array (.prim .u16) 2]) 0 =
      [(0, .bool), (1, .bool), (2, .u16), (18, .u16)] ∧
    tyLeaves .p32 (.array (.prim .u8) 3) 4 = [(4, .u8), (12, .u8), (20, .u8)] := by decide

/-- R78: `clr` writes 0x3E to STATUS; `setoff` splits its operand. -/
theorem test_expand : expandLine (.clr 0) = [.wr 0 .status (.lit 0x3E)] ∧
    expandLine (.setoff 0 (.lit 3)) = [.wr 0 .offLo (.slice 31 0 (.lit 3)), .wr 0 .offHi (.slice 63 32 (.lit 3))] := by
  decide

/-- R77: a negative number is its two's-complement pattern, P2: -2 in DATA1 is 0xFFFFFFFF. -/
theorem test_slice_negative : hostSlice 63 32 (-2) = 0xFFFFFFFF ∧ hostSlice 31 0 (-2) = 0xFFFFFFFE := by decide

/-- P4: (s2 & 0x3C) of s2 = 4. -/
theorem test_hostAnd : hostAnd 4 0x3C = 4 ∧ hostAnd (-1) 7 = 7 := by decide

/-! ## Witnesses: for every obligation with hypotheses, a state and operands that meet them together

`edge i` is a unit whose field ends at the last bit of its buffer, whose buffer ends at the top of `Mem`: both conditions of
R111 hold with equality. -/

/-- LEN = 17, BASE + LEN = 2^32, OFF + W = 8 * LEN. -/
def edgeUnit (i : Instr) : PkuUnit :=
  { PkuUnit.ofReset .p32 0 with
    off := BitVec.ofNat 64 (136 - typeWidth .p32 i.typeCode), base := 0xFFFFFFEF#64, len := 17#64, data := 0x5A#128 }

/-- One unit, `edgeUnit i`. -/
def edge (i : Instr) : State := { State.reset with mem := [(0xFFFFFFEF, 0x81#8)], units := [edgeUnit i] }

/-- The same with the command accepted. -/
def edgeBusy (i : Instr) : State := { edge i with units := [accepted i (edgeUnit i)] }

/-- One bit further: OFF + W = 8 * LEN + 1. -/
def shortUnit (i : Instr) : PkuUnit := { edgeUnit i with off := BitVec.ofNat 64 (137 - typeWidth .p32 i.typeCode) }

/-- One byte further: BASE + LEN = 2^32 + 1. -/
def wrapUnit (i : Instr) : PkuUnit := { edgeUnit i with base := 0xFFFFFFF0#64 }

/-- A state with one unit. -/
def withUnit (r : PkuUnit) : State := { State.reset with units := [r] }

/-- The first unit busy with `i` on bytes 0x100 and 0x101, the second with `j` on bytes 0x101 and 0x102 (OFF = 4, U8). -/
def overlap (i j : Instr) : State :=
  { State.reset with
    units := [accepted i (unitWith .p32 2 4 0#128),
      { accepted j (unitWith .p32 2 4 0#128) with regbase := 64, base := 0x101#64 }] }

/-- The first unit busy with `i` on bytes 0x100 and 0x101, the second with `j` on bytes 0x102 and 0x103. -/
def disjoint (i j : Instr) : State :=
  { State.reset with
    units := [accepted i (unitWith .p32 2 4 0x12#128),
      { accepted j (unitWith .p32 2 4 0x34#128) with regbase := 64, base := 0x102#64 }] }

/-- A unit that is not busy, with DONE and no fault, keeps the invariant of a unit. -/
theorem unitInv_idle {addrw : Nat} {r : PkuUnit} (h : r.status = Status.reset) (hr : r.raced = []) : UnitInv addrw r := by
  refine ⟨?_, ?_, ?_, ?_, ?_, ?_⟩ <;> simp [h, hr, Status.reset]

/-- A unit with a fitting command just accepted keeps the invariant of a unit. -/
theorem unitInv_busy {addrw : Nat} {r : PkuUnit} (i : Instr) (hc : decode? r.cmd = some i)
    (hs : r.status = Status.reset.accept) (hf : Fits addrw (typeWidth r.ptrw i.typeCode) r) (hr : r.raced = []) :
    UnitInv addrw r := by
  refine ⟨fun _ => ⟨i, hc, hf⟩, ?_, ?_, ?_, ?_, ?_⟩ <;> simp [hs, hr, Status.reset, Status.accept]

theorem inv_disjoint : Inv (disjoint .packU8 .unpackU8) := by
  refine ⟨rfl, by simp [disjoint, State.reset], by decide, by decide, ⟨by decide, by decide⟩, ?_⟩
  intro r hr
  simp only [disjoint, List.mem_cons, List.not_mem_nil, or_false] at hr
  rcases hr with rfl | rfl
  · exact unitInv_busy .packU8 rfl rfl ⟨by decide, by decide⟩ rfl
  · exact unitInv_busy .unpackU8 rfl rfl ⟨by decide, by decide⟩ rfl

/-- Every command fits at the edge. -/
theorem edge_fits (i : Instr) : Fits 32 (typeWidth .p32 i.typeCode) (edgeUnit i) := by
  cases i <;> exact ⟨by decide, by decide⟩

theorem inv_edgeBusy (i : Instr) : Inv (edgeBusy i) := by
  refine ⟨rfl, ?_, ⟨by show 1 ≤ 32; decide, by show 32 ≤ 64; decide⟩, Nat.zero_lt_one, ⟨?_, ?_⟩, ?_⟩
  · intro c hc
    rw [List.mem_singleton.mp hc]
    show 0xFFFFFFEF < 2 ^ 32
    decide
  · intro r hr
    rw [List.mem_singleton.mp hr]
    rfl
  · exact List.nodup_singleton _
  · intro r hr
    rw [List.mem_singleton.mp hr]
    exact unitInv_busy i (decode?_encode i) rfl (edge_fits i) rfl

/-- Every command can be performed at the edge. -/
theorem edge_performing (i : Instr) :
    Performing (edgeBusy i) (accepted i (edgeUnit i)) (typeWidth .p32 i.typeCode) :=
  ⟨rfl, rfl, edge_fits i, rfl⟩

theorem blocksApart_one (r : PkuUnit) (h : r.regbase = 0) : BlocksApart [r] := by
  refine ⟨fun v hv => ?_, by simp⟩
  rw [List.mem_singleton] at hv
  rw [hv, h]

theorem blocksApart_two : BlocksApart (overlap .packU8 .packU8).units := by
  refine ⟨fun v hv => ?_, ?_⟩
  · simp only [overlap, List.mem_cons, List.not_mem_nil, or_false] at hv
    rcases hv with rfl | rfl <;> rfl
  · show [0, 64].Nodup
    decide

theorem witness_CompletionStepRunsDecodedCommand :
    let s : State := { overlap .packU8 .unpackU8 with schedule := [.complete 1, .host] }
    s.schedule = .complete 1 :: [.host] ∧ (s.units[1]?.map fun r => (r.status.busy, decode? r.cmd)) =
      some (true, some .unpackU8) := ⟨rfl, rfl⟩

theorem witness_CmdWriteRunsDecodedCommand :
    let r := edgeUnit .packU16
    let s : State := { edge .packU16 with schedule := [.access (.regWrite (r.regbase + 0x04) .word 0x0A#32)] }
    BlocksApart s.units ∧ s.units[0]? = some r ∧ r.status.busy = false ∧ r.status.halted = false ∧
      decode 0x0A#32 = .ok .packU16 ∧ s.schedule = [.access (.regWrite (r.regbase + 0x04) .word 0x0A#32)] :=
  ⟨blocksApart_one _ rfl, rfl, rfl, rfl, rfl, rfl⟩

theorem witness_HostCmdStatementIssues :
    let r := edgeUnit .packU16
    let s : State := { edge .packU16 with
      schedule := [.host], host := { prog := [stmtCmd 0 .packU16], pos := 0, vars := [] } }
    BlocksApart s.units ∧ s.units[0]? = some r ∧ r.status.busy = false ∧ r.status.halted = false ∧
      s.schedule = [.host] ∧ s.host.prog[s.host.pos]? = some (stmtCmd 0 .packU16) ∧
      ∃ t, exec .packU16 { s with schedule := [], cur := 0 } = .next t :=
  ⟨blocksApart_one _ rfl, rfl, rfl, rfl, rfl, rfl, _, rfl⟩

theorem witness_FittingCommandIsAccepted : ∀ i : Instr, Idle (edge i) (edgeUnit i) ∧
    Fits (edge i).addrw (typeWidth (edgeUnit i).ptrw i.typeCode) (edgeUnit i) :=
  fun i => ⟨⟨rfl, rfl⟩, edge_fits i⟩

theorem witness_ShortBufferRaisesEcap : ∀ i : Instr, (withUnit (shortUnit i)).units[0]? = some (shortUnit i) ∧
    (shortUnit i).status.busy = false ∧ (shortUnit i).status.halted = false ∧
    8 * (shortUnit i).len.toNat < (shortUnit i).off.toNat + typeWidth (shortUnit i).ptrw i.typeCode :=
  fun i => ⟨rfl, rfl, rfl, by cases i <;> decide⟩

theorem witness_WrappingWindowRaisesEwrap : ∀ i : Instr, (withUnit (wrapUnit i)).units[0]? = some (wrapUnit i) ∧
    (wrapUnit i).status.busy = false ∧ (wrapUnit i).status.halted = false ∧
    (wrapUnit i).off.toNat + typeWidth (wrapUnit i).ptrw i.typeCode ≤ 8 * (wrapUnit i).len.toNat ∧
    2 ^ (withUnit (wrapUnit i)).addrw < (wrapUnit i).base.toNat + (wrapUnit i).len.toNat :=
  fun i => ⟨rfl, rfl, rfl, by cases i <;> decide, by cases i <;> decide⟩

theorem witness_IllegalWordRaisesEill :
    State.reset.units[0]? = some (PkuUnit.ofReset .p32 0) ∧ (PkuUnit.ofReset .p32 0).status.busy = false ∧
    (PkuUnit.ofReset .p32 0).status.halted = false ∧ (∀ i, (0x45#32 : Word) ≠ encode i) ∧
    ∀ i, (0xFFFFFFFF#32 : Word) ≠ encode i :=
  ⟨rfl, rfl, rfl, fun i => by cases i <;> decide, fun i => by cases i <;> decide⟩

/-- Each error bit alone halts, idle and (EBUSY) busy. -/
theorem witness_HaltedUnitIgnoresCommands :
    (∀ f : FaultCode, ((edgeUnit .packU8).raise f).status.halted = true ∧
      ((edgeUnit .packU8).raise f).status.busy = false) ∧
    (let r := (accepted .packU8 (edgeUnit .packU8)).raise .ebusy;
      (withUnit r).units[0]? = some r ∧ r.status.ebusy = true ∧ r.status.busy = true ∧
        decode r.cmd = .ok .packU8 ∧ Fits (withUnit r).addrw (typeWidth r.ptrw .u8) r) :=
  ⟨fun f => by cases f <;> exact ⟨rfl, rfl⟩, rfl, rfl, rfl, rfl, edge_fits .packU8⟩

/-- An UNPACK over another unit's UNPACK, and a PACK beside another unit's PACK. -/
theorem witness_UnpacksDoNotRace :
    let v := { accepted .unpackU8 (unitWith .p32 2 4 0#128) with regbase := 64, base := 0x101#64 }
    let w := { accepted .packU8 (unitWith .p32 2 4 0x34#128) with regbase := 64, base := 0x102#64 }
    let s : State := { State.reset with units := [unitWith .p32 2 4 0#128, v] }
    let s' : State := { State.reset with units := [unitWith .p32 2 4 0#128, w] }
    Idle s (unitWith .p32 2 4 0#128) ∧ Idle s' (unitWith .p32 2 4 0#128) ∧
      Fits 32 8 (unitWith .p32 2 4 0#128) ∧ Instr.op .unpackU8 = .unpack ∧ v.inFlight = some .unpackU8 ∧
      w.inFlight = some .packU8 ∧ ∀ a ∈ spanAddrs 0x100 4 8, a ∉ w.span :=
  ⟨⟨rfl, rfl⟩, ⟨rfl, rfl⟩, ⟨by decide, by decide⟩, rfl, rfl, rfl, by decide⟩

/-- A PACK on 0x100 and 0x101 while an UNPACK on 0x101 and 0x102 is in flight, and the other way round: byte 0x101. -/
theorem witness_OverlappingPackRaces : ∀ c ∈ [(Instr.packU8, Instr.unpackU8), (Instr.unpackU8, Instr.packU8)],
    let s : State := { overlap c.1 c.2 with units := (overlap c.1 c.2).units.set 0 (unitWith .p32 2 4 0#128) }
    Idle s (unitWith .p32 2 4 0#128) ∧ Fits s.addrw 8 (unitWith .p32 2 4 0#128) ∧
      (s.units[1]?.map fun v => (decide (0x101 ∈ v.span), decide (0x101 ∈ v.writeSpan))) =
        some (true, c.2 == .packU8) ∧ 0x101 ∈ spanAddrs 0x100 4 8 ∧ ∃ t, exec c.1 s = .next t := by
  intro c hc
  simp only [List.mem_cons, List.not_mem_nil, or_false] at hc
  rcases hc with rfl | rfl <;>
    exact ⟨⟨rfl, rfl⟩, ⟨by decide, by decide⟩, by decide, by decide, _, rfl⟩

theorem witness_UnpackBoolResult : Performing (edgeBusy .unpackBool) (accepted .unpackBool (edgeUnit .unpackBool)) 1 :=
  edge_performing .unpackBool

theorem witness_PackBoolResult : Performing (edgeBusy .packBool) (accepted .packBool (edgeUnit .packBool)) 1 :=
  edge_performing .packBool

/-- The widths of the forms are those of their type codes, so every form can be performed at the edge. -/
theorem witness_FormResults :
    ∀ f ∈ unpackUnsignedForms ++ packUnsignedForms ++ unpackSignedForms ++ packSignedForms,
      Memory.wf (edgeBusy f.1).mem = true ∧
      Performing (edgeBusy f.1) (accepted f.1 (edgeUnit f.1)) (f.2 (accepted f.1 (edgeUnit f.1)).ptrw) := by
  intro f hf
  have h : f.2 .p32 = typeWidth .p32 f.1.typeCode := by
    simp only [unpackUnsignedForms, packUnsignedForms, unpackSignedForms, packSignedForms, List.cons_append,
      List.nil_append, List.mem_cons, List.not_mem_nil, or_false] at hf
    rcases hf with rfl | rfl | rfl | rfl | rfl | rfl | rfl | rfl | rfl | rfl | rfl | rfl | rfl | rfl | rfl | rfl |
      rfl | rfl | rfl | rfl | rfl | rfl | rfl | rfl <;> rfl
  refine ⟨rfl, ?_⟩
  show Performing _ _ (f.2 .p32)
  rw [h]
  exact edge_performing f.1

/-- -1 packed as I8 and 255 packed as U8 (X3): the low 8 bits of DATA agree. -/
theorem witness_SignedPackWritesUnsignedBytes :
    (Instr.packI8, Instr.packU8, fun _ => 8) ∈ packPairs ∧
    (let r := { accepted .packI8 (edgeUnit .packI8) with data := BitVec.allOnes 128 };
      Performing (withUnit r) r 8 ∧ ∀ k, k < 8 → (255#128).getLsbD k = r.data.getLsbD k) :=
  ⟨by simp [packPairs], ⟨rfl, rfl, edge_fits .packI8, rfl⟩, by decide⟩

theorem witness_RacedUnpackCompletes :
    let r := { accepted .unpackU8 (edgeUnit .unpackU8) with raced := [0xFFFFFFFF] }
    Instr.op .unpackU8 = .unpack ∧ (withUnit r).unit? = some r ∧ r.status.busy = true ∧
      Fits (withUnit r).addrw (typeWidth r.ptrw .u8) r := ⟨rfl, rfl, rfl, edge_fits .unpackU8⟩

/-- One byte of the span raced, the other not. -/
theorem witness_RacedPackKeepsOtherBytes :
    let r := { accepted .packU8 (unitWith .p32 2 4 0#128) with raced := [0x101] }
    Instr.op .packU8 = .pack ∧ Memory.wf (withUnit r).mem = true ∧ (withUnit r).unit? = some r ∧
      r.status.busy = true ∧ Fits (withUnit r).addrw (typeWidth r.ptrw .u8) r ∧
      0x100 ∈ r.span ∧ 0x100 ∉ r.raced ∧ 0x102 ∉ r.span ∧ 0x101 ∈ r.raced :=
  ⟨rfl, rfl, rfl, rfl, ⟨by decide, by decide⟩, by decide, by decide, by decide, by decide⟩

theorem witness_CompletionCannotFault : ∀ i : Instr,
    let s : State := { edgeBusy i with schedule := [.complete 0] }
    Inv s ∧ s.schedule = [.complete 0] ∧ s.units[0]? = some (accepted i (edgeUnit i)) ∧
      (accepted i (edgeUnit i)).status.busy = true :=
  fun i => ⟨⟨(inv_edgeBusy i).memWf, (inv_edgeBusy i).memBound, (inv_edgeBusy i).addrw, (inv_edgeBusy i).curLt,
    (inv_edgeBusy i).blocks, (inv_edgeBusy i).units⟩, rfl, rfl, rfl⟩

/-- No unit in hand; and a busy unit whose one span byte is 2^32. -/
theorem witness_UnreachableCommandsStop :
    State.unit? { State.reset with cur := 1 } = none ∧
    (let r := { accepted .packBool (edgeUnit .packBool) with base := 0x100000000#64, off := 0#64 };
      (withUnit r).unit? = some r ∧ r.status.busy = true ∧
        2 ^ (withUnit r).addrw < r.base.toNat + r.off.toNat / 8 + spanBytes r.off.toNat (typeWidth r.ptrw .bool)) :=
  ⟨rfl, rfl, rfl, by decide⟩

/-- The greatest value of the width, and a canonical memory. -/
theorem witness_InsertBytesIsInsert : 2 ^ 16 - 1 < 2 ^ 16 := by decide

theorem witness_AlignedFieldIsBigEndian : Memory.wf (bytesAt 0x100 [0xFF#8, 0xFF#8]) = true ∧
    0xFFFF < 2 ^ (8 * 2) := by decide

theorem witness_InsertDisturbsNothingElse : Memory.wf (bytesAt 0x100 [0xFF#8]) = true ∧
    (4 < 5 ∨ 5 + 8 ≤ 4) ∧ 0x102 ∉ spanAddrs 0x100 5 8 ∧ (5 + 0 ≤ 5 ∨ 5 + 8 ≤ 5) ∧ (13 + 8 ≤ 5 ∨ 5 + 8 ≤ 13) := by
  decide

/-- Fields that abut in one byte: 5..12 and 13..20. -/
theorem witness_InsertsOverwriteAndCommute : Memory.wf (bytesAt 0x100 [0xFF#8]) = true ∧
    (5 + 8 ≤ 13 ∨ 13 + 8 ≤ 5) := by decide

theorem witness_AcceptedSpanInsideBuffer : Fits 32 128 (edgeUnit .packU128) ∧
    0xFFFFFFFF ∈ spanAddrs (edgeUnit .packU128).base.toNat (edgeUnit .packU128).off.toNat 128 :=
  ⟨edge_fits .packU128, by decide⟩

theorem witness_UnpackOfPackReturnsValue : (Memory.wf [(0, 0xFF#8)] = true ∧ 0xFFFF < 2 ^ 16) ∧ ∀ tc : TypeCode,
    let i := Instr.ofParts .pack tc
    let r := edgeUnit i
    let s : State := { edge i with schedule :=
      [.access (.regWrite (r.regbase + 0x04) .word (encode i)), .complete 0,
        .access (.regWrite (r.regbase + 0x04) .word (encode (Instr.ofParts .unpack tc))), .complete 0] ++ [] }
    BlocksApart s.units ∧ Memory.wf s.mem = true ∧ s.units[0]? = some r ∧ (∀ v ∈ s.units, v.status.busy = false) ∧
      r.status.halted = false ∧ Fits s.addrw (typeWidth r.ptrw tc) r := by
  refine ⟨⟨rfl, by decide⟩, ?_⟩
  intro tc
  have ht : (Instr.ofParts .pack tc).typeCode = tc := by cases tc <;> rfl
  refine ⟨blocksApart_one _ rfl, rfl, rfl, fun v hv => ?_, rfl, ?_⟩
  · rw [List.mem_singleton.mp hv]
    rfl
  · have := edge_fits (Instr.ofParts .pack tc)
    rwa [ht] at this

/-- Every operand register of the second of two units, idle. -/
theorem witness_OperandRegisterReadsBack : ∀ reg ∈ operandRegs,
    let s : State := { overlap .packU8 .packU8 with units :=
      [accepted .packU8 (unitWith .p32 2 4 0#128), { unitWith .p64 2 4 0#128 with regbase := 64 }] }
    BlocksApart s.units ∧ s.units[1]? = some { unitWith .p64 2 4 0#128 with regbase := 64 } ∧
      (unitWith .p64 2 4 0#128).status.busy = false ∧ reg ∈ operandRegs := by
  intro reg hreg
  refine ⟨⟨fun v hv => ?_, ?_⟩, rfl, rfl, hreg⟩
  · simp only [List.mem_cons, List.not_mem_nil, or_false] at hv
    rcases hv with rfl | rfl <;> rfl
  · show [0, 64].Nodup
    decide

theorem witness_BusyWriteSetsEbusy : BlocksApart (overlap .packU8 .packU8).units ∧
    ((overlap .packU8 .packU8).units.map fun r => r.status.busy) = [true, true] ∧ Reg.cmd ∈ Reg.cmd :: operandRegs :=
  ⟨blocksApart_two, rfl, by simp⟩

/-- A busy unit and an idle one. -/
theorem witness_StatusWriteOneToClear : BlocksApart (edgeBusy .packU8).units ∧ BlocksApart (edge .packU8).units ∧
    (edgeBusy .packU8).units[0]? = some (accepted .packU8 (edgeUnit .packU8)) :=
  ⟨blocksApart_one _ rfl, blocksApart_one _ rfl, rfl⟩

theorem witness_ReadOnlyRegistersIgnoreWrites : Reg.rsv2C ∈ readOnlyRegs ∧ Reg.cfg ∈ readOnlyRegs ∧
    BlocksApart (edgeBusy .packU8).units ∧
    (edgeBusy .packU8).units[0]? = some (accepted .packU8 (edgeUnit .packU8)) :=
  ⟨by decide, by decide, blocksApart_one _ rfl, rfl⟩

/-- ADDRW at both ends of its range. -/
theorem witness_CfgReportsParameters : ∀ addrw ∈ [1, 64],
    let s : State := { State.reset with addrw := addrw }
    BlocksApart s.units ∧ s.units[0]? = some (PkuUnit.ofReset .p32 0) ∧ 1 ≤ s.addrw ∧ s.addrw ≤ 64 ∧
      ∃ t, runTurn (.reset 0) s = .next t := by
  intro addrw h
  simp only [List.mem_cons, List.not_mem_nil, or_false] at h
  rcases h with rfl | rfl <;> exact ⟨blocksApart_one _ rfl, rfl, by decide, by decide, _, rfl⟩

/-- A 16-bit access at an aligned offset; a 32-bit one at the last byte of the block. -/
theorem witness_UndecodedAccessHasNoEffect : BlocksApart State.reset.units ∧
    State.reset.units[0]? = some (PkuUnit.ofReset .p32 0) ∧
    (0x10 < 64 ∧ (AccessSize.half ≠ .word ∨ 0x10 % 4 ≠ 0)) ∧ (63 < 64 ∧ (AccessSize.word ≠ .word ∨ 63 % 4 ≠ 0)) :=
  ⟨blocksApart_one _ rfl, rfl, by decide, by decide⟩

/-- DATA3 idle, STATUS busy; DATA0 busy. -/
theorem witness_RegisterReads : BlocksApart (edge .packU8).units ∧ BlocksApart (edgeBusy .packU8).units ∧
    ((edgeUnit .packU8).status.busy = false ∨ isDataReg .data3 = false) ∧
    ((accepted .packU8 (edgeUnit .packU8)).status.busy = false ∨ isDataReg .status = false) ∧
    ((accepted .packU8 (edgeUnit .packU8)).status.busy = true ∧ isDataReg .data0 = true) :=
  ⟨blocksApart_one _ rfl, blocksApart_one _ rfl, .inl rfl, .inr rfl, rfl, rfl⟩

theorem witness_ResetRegisterValues : PkuUnit.ofReset .p32 0 ∈ State.reset.units := by decide

theorem witness_ResetKeepsMemory : (edge .packU8).units[0]? = some (edgeUnit .packU8) ∧
    (edgeUnit .packU8).status.busy = false := ⟨rfl, rfl⟩

/-- A busy UNPACK, and a busy PACK one of whose two bytes raced. -/
theorem witness_ResetAbandonsCommand : ∀ i ∈ [Instr.unpackU8, Instr.packU8],
    let r := { accepted i (unitWith .p32 2 4 0#128) with raced := [0x101] }
    Memory.wf (withUnit r).mem = true ∧ (withUnit r).units[0]? = some r ∧ r.inFlight = some i ∧
      Fits (withUnit r).addrw (typeWidth r.ptrw i.typeCode) r ∧ 0x100 ∈ r.span ∧ 0x100 ∉ r.raced ∧ 0xFF ∉ r.span := by
  intro i hi
  simp only [List.mem_cons, List.not_mem_nil, or_false] at hi
  rcases hi with rfl | rfl <;>
    exact ⟨rfl, rfl, rfl, ⟨by decide, by decide⟩, by decide, by decide, by decide⟩

/-- The last address of Mem, which the command in flight spans, and one that it does not. -/
theorem witness_HostMemoryWrite : Memory.wf (edgeBusy .packU8).mem = true ∧
    0xFFFFFFFF < 2 ^ (edgeBusy .packU8).addrw ∧
    (edgeBusy .packU8).units[0]? = some (accepted .packU8 (edgeUnit .packU8)) ∧
    0xFFFFFFFF ∈ (accepted .packU8 (edgeUnit .packU8)).span ∧
    0xFFFFFFFE ∉ (accepted .packU8 (edgeUnit .packU8)).span :=
  ⟨rfl, by decide, rfl, by decide, by decide⟩

/-- A byte that no PACK spans, and one that a PACK in flight spans. -/
theorem witness_HostMemoryRead : 0xFFFFFFFF < 2 ^ (edgeBusy .packU8).addrw ∧
    (∀ v ∈ (edgeBusy .packU8).units, 0xFFFFFFFE ∉ v.writeSpan) ∧
    ∃ v ∈ (edgeBusy .packU8).units, 0xFFFFFFFF ∈ v.writeSpan :=
  ⟨by decide, by decide, accepted .packU8 (edgeUnit .packU8), by simp [edgeBusy], by decide⟩

/-- A PACK and an UNPACK of two units on neighbouring bytes. -/
theorem witness_DisjointUnitsCommute :
    let a := accepted .packU8 (unitWith .p32 2 4 0x12#128)
    let b := { accepted .unpackU8 (unitWith .p32 2 4 0x34#128) with regbase := 64, base := 0x102#64 }
    Inv (disjoint .packU8 .unpackU8) ∧ (disjoint .packU8 .unpackU8).units[0]? = some a ∧
      (disjoint .packU8 .unpackU8).units[1]? = some b ∧ a.status.busy = true ∧ b.status.busy = true ∧
      a.raced = [] ∧ b.raced = [] ∧ ∀ x ∈ a.span, x ∉ b.span :=
  ⟨inv_disjoint, rfl, rfl, rfl, rfl, rfl, rfl, by decide⟩

theorem witness_StepKeepsInv : Inv (edgeBusy .packU128) ∧ ∃ t, step (edgeBusy .packU128) = .next t :=
  ⟨inv_edgeBusy _, _, rfl⟩

theorem witness_StepKeepsParameters : ∃ t, step State.reset = .next t := ⟨_, rfl⟩

/-- The completion step of an UNPACK, which writes DATA. -/
theorem witness_BusyUnitKeepsOperands : ∃ t r', step (edgeBusy .unpackU8) = .next t ∧
    (edgeBusy .unpackU8).units[0]? = some (accepted .unpackU8 (edgeUnit .unpackU8)) ∧ t.units[0]? = some r' ∧
    (accepted .unpackU8 (edgeUnit .unpackU8)).status.busy = true := ⟨_, _, rfl, rfl, rfl, rfl⟩

/-- H2: a write of 0x04 to STATUS clears ECAP; so does `clr`, and the unit's reset. -/
theorem witness_ErrorBitsAreSticky :
    let r : PkuUnit := { PkuUnit.ofReset .p32 0 with cmd := 0x05#32, status := Status.reset.raise .ecap }
    let clears : State → Prop := fun s => ∃ t r', step s = .next t ∧ s.units[0]? = some r ∧ t.units[0]? = some r' ∧
      r.status.toWord.getLsbD FaultCode.ecap.code = true ∧ r'.status.toWord.getLsbD FaultCode.ecap.code = false
    clears { halted with schedule := [.access (.regWrite 8 .word 0x04#32)] } ∧
    clears { halted with schedule := [.host], host := { prog := expandLine (.clr 0), pos := 0, vars := [] } } ∧
    clears { halted with schedule := [.reset 0] } :=
  ⟨⟨_, _, rfl, rfl, rfl, rfl, rfl⟩, ⟨_, _, rfl, rfl, rfl, rfl, rfl⟩, _, _, rfl, rfl, rfl, rfl, rfl⟩

theorem witness_CommandsKeepOperandRegisters : ∀ i : Instr, (∃ t, exec i (edge i) = .next t) ∧
    ∃ t, exec i (edgeBusy i) = .next t := by
  intro i
  cases i <;> exact ⟨⟨_, rfl⟩, _, rfl⟩

theorem witness_BusyUnitsComplete : Inv (disjoint .packU8 .unpackU8) ∧ (disjoint .packU8 .unpackU8).schedule = [] ∧
    numBusy (disjoint .packU8 .unpackU8).units = 2 := ⟨inv_disjoint, rfl, rfl⟩

theorem witness_SetdataWritesData :
    let s : State := { edge .packU8 with
      schedule := [.host, .host, .host, .host] ++ [.reset 0], host := { prog := stmtsSetdata 0 (.lit (-2)), pos := 0, vars := [] } }
    BlocksApart s.units ∧ s.units[0]? = some (edgeUnit .packU8) ∧ (edgeUnit .packU8).status.busy = false ∧
      s.host.prog.drop s.host.pos = stmtsSetdata 0 (.lit (-2)) ++ [] :=
  ⟨blocksApart_one _ rfl, rfl, rfl, rfl⟩

theorem witness_GetdataReadsData :
    let s : State := { edge .packU8 with
      schedule := [.host, .host, .host, .host, .host] ++ [.complete 0]
      host := { prog := stmtsGetdata 0 (.name 3), pos := 0, vars := [] } }
    BlocksApart s.units ∧ s.units[0]? = some (edgeUnit .packU8) ∧ (edgeUnit .packU8).status.busy = false ∧
      s.host.prog.drop s.host.pos = stmtsGetdata 0 (.name 3) ++ [] :=
  ⟨blocksApart_one _ rfl, rfl, rfl, rfl⟩

/-- A busy unit and an idle one. -/
theorem witness_WaitPollsBusy : ∀ s ∈ [edge .packU8, edgeBusy .packU8],
    let s' : State := { s with schedule := [.host], host := { prog := [.wait 0], pos := 0, vars := [] } }
    BlocksApart s'.units ∧ (∃ r, s'.units[0]? = some r) ∧ s'.host.prog[s'.host.pos]? = some (.wait 0) := by
  intro s hs
  simp only [List.mem_cons, List.not_mem_nil, or_false] at hs
  rcases hs with rfl | rfl <;> exact ⟨blocksApart_one _ rfl, ⟨_, rfl⟩, rfl⟩

/-- P2: 5 + 57 = 62 <= 64, and the last leaf; one value and one name a leaf; a check whose label is the second statement. -/
theorem witness_CompositeCheckCoversLeaves :
    let ty := tupleOf [.prim .bool, .prim .u8, .prim .i16, .prim .u32]
    let check : HostStmt := .ifGoto (.add (.lit 8) (.lit (tyWidth .p32 ty))) .gt (.mul (.lit 8) (.lit 8)) 7
    (5 + tyWidth .p32 ty ≤ 8 * 8 ∧ (30, .u32) ∈ tyLeaves .p32 ty 5) ∧ tyLeaves .p32 ty 0 ≠ [] ∧
      [Expr.lit 1, .lit 2, .lit 3, .lit 4].length = (tyLeaves .p32 ty 0).length ∧
      [Var.name 0, .name 1, .name 2, .name 3].length = (tyLeaves .p32 ty 0).length ∧
      evalExpr [] (.lit 8) = some 8 ∧ [check, .label 7].findIdx? (HostStmt.defines 7) = some 1 := by decide

theorem witness_CompositeLeavesTile :
    (tyLeaves .p32 (tupleOf [.prim .bool, .prim .u8]) 5)[1]? = some (6, .u8) := by decide

/-- Two leaves that share a byte, in both orders. -/
theorem witness_LeafOrderDoesNotMatter :
    Memory.wf (bytesAt 0x100 [0xAA#8]) = true ∧
    [LeafValue.mk 5 8 0xC3, LeafValue.mk 13 8 0x12].Pairwise Apart ∧
    [LeafValue.mk 5 8 0xC3, LeafValue.mk 13 8 0x12].Perm [LeafValue.mk 13 8 0x12, LeafValue.mk 5 8 0xC3] :=
  ⟨by decide, by simp [Apart], List.Perm.swap _ _ _⟩

end Sys2Proof.Tests
end

section
/-! The parameters of R6 are constant: O48. -/

namespace Sys2Proof.Machine

open Sys2Proof

/-- No host register write reaches PTRW (R21). -/
@[simp] theorem storeReg_ptrw (r : PkuUnit) (w : Word) (reg : Reg) : (storeReg r w reg).ptrw = r.ptrw := by
  cases reg <;> rfl

/-- No host register write moves the register block (R6, R20). -/
@[simp] theorem storeReg_regbase (r : PkuUnit) (w : Word) (reg : Reg) :
    (storeReg r w reg).regbase = r.regbase := by
  cases reg <;> rfl

/-- Whatever a step does to a unit, its parameters stay (R6); its reset keeps them too (R250). -/
theorem UnitChange.keeps_params {addrw : Nat} {r r' : PkuUnit} (h : UnitChange addrw r r') :
    r'.ptrw = r.ptrw ∧ r'.regbase = r.regbase := by
  cases h with
  | store reg w _ => exact ⟨storeReg_ptrw r w reg, storeReg_regbase r w reg⟩
  | none | note | w1c | ebusy | illegal | capacity | window | accept | unpacked | packed | reset => exact ⟨rfl, rfl⟩

/-- No unit appears or goes, and each keeps its place and its parameters. -/
theorem UnitsChange.unitParams_eq {s t : State} (h : UnitsChange s t) : unitParams t.units = unitParams s.units := by
  obtain ⟨-, hlength, -, hchange⟩ := h
  apply List.ext_getElem?
  intro k
  simp only [unitParams, List.getElem?_map]
  cases hs : s.units[k]? with
  | none =>
    have ht : t.units[k]? = none := by rw [List.getElem?_eq_none_iff] at hs ⊢; omega
    rw [ht]
  | some r =>
    obtain ⟨r', ht, hr⟩ := hchange k r hs
    obtain ⟨hptrw, hregbase⟩ := hr.keeps_params
    rw [ht, Option.map_some, Option.map_some, hptrw, hregbase]

/-- Settles O48, from what any step can do to the units (`step_units`). -/
theorem stepKeepsParameters : Obligations.StepKeepsParameters := by
  intro s t h
  have hunits := step_units h
  have ⟨haddrw, _⟩ := hunits
  exact ⟨haddrw, hunits.unitParams_eq⟩

end Sys2Proof.Machine
end

section
/-! The machine's invariant holds at reset and every step keeps it: O46 and O47. -/

namespace Sys2Proof.Machine

open Sys2Proof

@[simp] theorem storeReg_status (r : PkuUnit) (w : Word) (reg : Reg) : (storeReg r w reg).status = r.status := by
  cases reg <;> rfl

@[simp] theorem storeReg_raced (r : PkuUnit) (w : Word) (reg : Reg) : (storeReg r w reg).raced = r.raced := by
  cases reg <;> rfl

/-! ## The faults' bits -/

/-- What `UnitInv` says of STATUS, busy or not: an issue fault leaves DONE = 0 and comes alone (R226, R227). -/
def Status.FaultsOk (st : Status) : Prop :=
  ((st.ecap || st.eill || st.ewrap) = true → st.done = false) ∧
    (st.ecap && st.eill) = false ∧ (st.ecap && st.ewrap) = false ∧ (st.eill && st.ewrap) = false

theorem UnitInv.faultsOk {addrw : Nat} {r : PkuUnit} (h : UnitInv addrw r) : r.status.FaultsOk :=
  ⟨h.faultNotDone, h.oneFault⟩

/-- Write-1-to-clear sets no bit, so it keeps what holds of the faults' bits (R23). -/
theorem Status.FaultsOk.w1c {st : Status} (h : st.FaultsOk) (w : Word) : (st.w1c w).FaultsOk := by
  simp only [Status.FaultsOk, status_w1c_done, status_w1c_ecap, status_w1c_eill, status_w1c_ewrap] at *
  grind

/-- A fault raised at issue finds no other fault's bit set, since the unit was not halted, and DONE cleared (R111, R228). -/
theorem faultsOk_issueFault {st : Status} (h : st.halted = false) (f : FaultCode) :
    (st.clearDone.raise f).FaultsOk := by
  simp only [Status.halted, Bool.or_eq_false_iff] at h
  obtain ⟨⟨⟨hecap, heill⟩, hewrap⟩, -⟩ := h
  cases f <;> simp [Status.FaultsOk, Status.raise, Status.clearDone, hecap, heill, hewrap]

/-! ## `UnitInv` under each change of a unit -/

/-- Of a unit that is not busy, `UnitInv` says that the faults' bits are in order and that no race is recorded. -/
theorem unitInv_idle_iff {addrw : Nat} {r : PkuUnit} (hb : r.status.busy = false) :
    UnitInv addrw r ↔ r.status.FaultsOk ∧ r.raced = [] := by
  constructor
  · intro h
    refine ⟨h.faultsOk, List.eq_nil_iff_forall_not_mem.mpr fun a ha => ?_⟩
    have hspan := h.racedSpan a ha
    rw [span_idle hb] at hspan
    exact List.not_mem_nil hspan
  · rintro ⟨⟨hdone, hone⟩, hraced⟩
    exact ⟨by simp [hb], by simp [hb], hdone, hone, by simp [hraced], by simp [hraced]⟩

/-- A new STATUS with the same BUSY, in which no issue fault's bit or DONE is set while busy. -/
theorem UnitInv.setStatus {addrw : Nat} {r : PkuUnit} {st : Status} (h : UnitInv addrw r)
    (hbusy : st.busy = r.status.busy) (hfaults : st.FaultsOk)
    (hflags : r.status.busy = true → st.done = false ∧ st.ecap = false ∧ st.eill = false ∧ st.ewrap = false) :
    UnitInv addrw { r with status := st } where
  accepted hb := h.accepted (hbusy ▸ hb)
  busyFlags hb := hflags (hbusy ▸ hb)
  faultNotDone := hfaults.1
  oneFault := hfaults.2
  racedSpan a ha := by
    have hspan : ({ r with status := st } : PkuUnit).span = r.span := by
      simp only [PkuUnit.span, PkuUnit.inFlight, hbusy]
    rw [hspan]
    exact h.racedSpan a ha
  racedNodup := h.racedNodup

/-- Noting a race keeps the invariant: only bytes of the span are noted, each once (R63). -/
theorem UnitInv.noteWrites {addrw : Nat} {r : PkuUnit} (h : UnitInv addrw r) (ws : List Nat) :
    UnitInv addrw (r.noteWrites ws) where
  accepted := h.accepted
  busyFlags := h.busyFlags
  faultNotDone := h.faultNotDone
  oneFault := h.oneFault
  racedSpan a ha := by
    rw [span_noteWrites]
    rcases mem_raced_noteWrites.mp ha with ha | ⟨ha, -⟩
    · exact h.racedSpan a ha
    · exact ha
  racedNodup := raced_noteWrites_nodup h.racedNodup (span_nodup r) ws

/-- A command accepted by a unit that is not halted (R111). -/
theorem unitInv_accept {addrw : Nat} {r : PkuUnit} {i : Instr} (hh : r.status.halted = false)
    (hf : Fits addrw (typeWidth r.ptrw i.typeCode) r) : UnitInv addrw (r.store (encode i)).accept := by
  simp only [Status.halted, Bool.or_eq_false_iff] at hh
  obtain ⟨⟨⟨hecap, heill⟩, hewrap⟩, -⟩ := hh
  exact {
    accepted := fun _ => ⟨i, decode?_encode i, hf⟩
    busyFlags := fun _ => ⟨rfl, hecap, heill, hewrap⟩
    faultNotDone := fun _ => rfl
    oneFault := by simp [hecap, heill, hewrap]
    racedSpan := by simp
    racedNodup := by simp }

/-- A completion step finds no issue fault's bit set, and ends the races (R112). -/
theorem UnitInv.finish {addrw : Nat} {r : PkuUnit} (h : UnitInv addrw r) (hb : r.status.busy = true) (d : Data) :
    UnitInv addrw ({ r with data := d } : PkuUnit).finish := by
  obtain ⟨-, hecap, heill, hewrap⟩ := h.busyFlags hb
  refine (unitInv_idle_iff rfl).mpr ⟨?_, rfl⟩
  simp [Status.FaultsOk, hecap, heill, hewrap]

theorem unitInv_ofReset (addrw : Nat) (p : PtrWidth) (b : Nat) : UnitInv addrw (PkuUnit.ofReset p b) :=
  (unitInv_idle_iff rfl).mpr ⟨by simp [Status.FaultsOk, PkuUnit.ofReset, Status.reset], rfl⟩

/-- A fault raised at the issue of any word to a unit neither busy nor halted (R111, R226). -/
theorem UnitInv.issueFault {addrw : Nat} {r : PkuUnit} (h : UnitInv addrw r) (hb : r.status.busy = false)
    (hh : r.status.halted = false) (w : Word) (f : FaultCode) : UnitInv addrw ((r.store w).raise f) := by
  have hraced := ((unitInv_idle_iff hb).mp h).2
  exact (unitInv_idle_iff (by simpa using hb)).mpr ⟨faultsOk_issueFault hh f, hraced⟩

/-- Whatever a step does to a unit keeps `UnitInv`. -/
theorem UnitChange.keeps_inv {addrw : Nat} {r r' : PkuUnit} (hc : UnitChange addrw r r') (h : UnitInv addrw r) :
    UnitInv addrw r' := by
  cases hc with
  | none => exact h
  | note ws => exact h.noteWrites ws
  | w1c w =>
    refine h.setStatus rfl (h.faultsOk.w1c w) fun hb => ?_
    simp [h.busyFlags hb]
  | ebusy => exact h.setStatus rfl h.faultsOk h.busyFlags
  | store reg w hb =>
    rw [unitInv_idle_iff (by simpa using hb), storeReg_status, storeReg_raced]
    exact (unitInv_idle_iff hb).mp h
  | illegal w hb hh => exact h.issueFault hb hh w .eill
  | capacity w hb hh => exact h.issueFault hb hh w .ecap
  | window w hb hh => exact h.issueFault hb hh w .ewrap
  | accept i ws _ hh hf => exact (unitInv_accept hh hf).noteWrites ws
  | unpacked d _ hb => exact h.finish hb d
  | packed hb => exact h.finish hb r.data
  | reset => exact unitInv_ofReset addrw r.ptrw r.regbase

/-! ## The machine -/

/-- That the register blocks lie apart depends on the units' parameters only (R6). -/
theorem blocksApart_iff {us : List PkuUnit} :
    BlocksApart us ↔ (∀ p ∈ unitParams us, p.2 % 64 = 0) ∧ ((unitParams us).map Prod.snd).Nodup := by
  simp [BlocksApart, unitParams, Function.comp_def]

theorem UnitsChange.keeps_blocks {s t : State} (h : UnitsChange s t) (hs : BlocksApart s.units) :
    BlocksApart t.units := by
  rwa [blocksApart_iff, h.unitParams_eq, ← blocksApart_iff]

/-- Every unit after a step is a unit before it, changed by `UnitChange`. -/
theorem UnitsChange.exists_before {s t : State} (h : UnitsChange s t) {r' : PkuUnit} (hr' : r' ∈ t.units) :
    ∃ r ∈ s.units, UnitChange s.addrw r r' := by
  obtain ⟨-, hlength, -, hchange⟩ := h
  obtain ⟨k, hk, rfl⟩ := List.mem_iff_getElem.mp hr'
  have hks : k < s.units.length := hlength ▸ hk
  obtain ⟨r'', hr'', hc⟩ := hchange k s.units[k] (List.getElem?_eq_getElem hks)
  rw [List.getElem?_eq_getElem hk, Option.some_inj] at hr''
  exact ⟨_, List.getElem_mem hks, hr'' ▸ hc⟩

/-- Settles O47, from what any step can do to the units (`step_units`) and to the memory (`step_memOk`). -/
theorem stepKeepsInv : Obligations.StepKeepsInv := by
  intro s t hinv h
  have hunits := step_units h
  obtain ⟨hwf, hbound⟩ := step_memOk ⟨hinv.memWf, hinv.memBound⟩ h
  have ⟨haddrw, hlength, hcur, _⟩ := hunits
  refine ⟨hwf, hbound, haddrw ▸ hinv.addrw, ?_, hunits.keeps_blocks hinv.blocks, fun r' hr' => ?_⟩
  · have hlt := hinv.curLt
    omega
  · obtain ⟨r, hr, hc⟩ := hunits.exists_before hr'
    rw [haddrw]
    exact hc.keeps_inv (hinv.units r hr)

/-- Settles O46: the one unit of the reset state is a unit right after reset, and nothing is listed in memory. -/
theorem invHoldsAtReset : Obligations.InvHoldsAtReset where
  memWf := rfl
  memBound := by simp [State.reset]
  addrw := by decide
  curLt := by decide
  blocks := by simp [BlocksApart, State.reset, PkuUnit.ofReset, Config.resetRegbase]
  units r hr := by
    rw [List.mem_singleton.mp hr]
    exact unitInv_ofReset _ _ _

end Sys2Proof.Machine
end

section
/-! What commands and steps leave alone: the operands of a busy unit (O49), the operand registers under every command (O51),
and the error bits under every step (O50). -/

namespace Sys2Proof.Machine

open Sys2Proof

/-! ## A busy unit -/

/-- Settles O49: of what a step can do to a unit (`UnitChange`), only notes of races, STATUS bits, the completion step and the
reset reach a busy one. -/
theorem busyUnitKeepsOperands : Obligations.BusyUnitKeepsOperands := by
  intro s t u r r' h hr hr' hbusy
  obtain ⟨-, -, -, hchange⟩ := step_units h
  obtain ⟨r'', hr'', hc⟩ := hchange u r hr
  rw [hr', Option.some_inj] at hr''
  subst hr''
  cases hc with
  | reset => exact .inl rfl
  | none | note | w1c | ebusy | packed => exact .inr ⟨rfl, rfl, rfl, rfl, .inl rfl⟩
  | unpacked d i hb hd hi =>
    have hfly : r.inFlight = some i := by rw [PkuUnit.inFlight, if_pos hb, decode?_eq_some.mpr hd]
    exact .inr ⟨rfl, rfl, rfl, rfl, .inr ⟨rfl, i, hfly, hi⟩⟩
  | store _ _ hb | illegal _ hb | capacity _ hb | window _ hb | accept _ _ hb =>
    rw [hb] at hbusy
    cases hbusy

/-! ## Commands -/

/-- Everything that a command can answer as a next state: its issue raises a fault or is accepted, or its completion step
ends it (R111, R112). -/
theorem exec_cases {i : Instr} {s t : State} (h : exec i s = .next t) : ∃ r, s.unit? = some r ∧
    ((∃ f, t = s.setUnit ((r.store (encode i)).raise f)) ∨ t = acceptCommand s (r.store (encode i)) ∨
      ∃ d m n, t = { s.setUnit ({ r with data := d } : PkuUnit).finish with mem := m, draws := n }) := by
  cases hu : s.unit? with
  | none =>
    rw [exec_no_unit i hu] at h
    cases h
  | some r =>
    refine ⟨r, rfl, ?_⟩
    cases hb : r.status.busy with
    | false =>
      rw [exec_idle i hu hb] at h
      cases h
      unfold issueCommand
      split
      · split
        · exact .inr (.inl rfl)
        · exact .inl ⟨.ewrap, rfl⟩
      · exact .inl ⟨.ecap, rfl⟩
    | true =>
      cases hi : i.op with
      | unpack =>
        rw [exec_busy_unpack hi hu hb] at h
        obtain ⟨-, d, n, rfl⟩ := completeUnpack_next h
        exact .inr (.inr ⟨d, s.mem, n, rfl⟩)
      | pack =>
        rw [exec_busy_pack hi hu hb] at h
        obtain ⟨-, n, rfl⟩ := completePack_next h
        exact .inr (.inr ⟨r.data, _, n, rfl⟩)

/-- What every command leaves alone: OFF, BASE and LEN of all units, and DATA, STATUS and CMD of the others (R28 to R30,
R233). -/
def CommandFrame (s t : State) : Prop :=
  t.units.length = s.units.length ∧
    ∀ (k : Nat) (v v' : PkuUnit), s.units[k]? = some v → t.units[k]? = some v' →
      v'.off = v.off ∧ v'.base = v.base ∧ v'.len = v.len ∧
        (k ≠ s.cur → v'.data = v.data ∧ v'.status = v.status ∧ v'.cmd = v.cmd)

/-- Putting back the unit in hand with its OFF, BASE and LEN. -/
theorem commandFrame_setUnit {s t : State} {r r' : PkuUnit} (hu : s.unit? = some r) (ht : t.units = (s.setUnit r').units)
    (hoff : r'.off = r.off) (hbase : r'.base = r.base) (hlen : r'.len = r.len) : CommandFrame s t := by
  refine ⟨by simp [ht], fun k v v' hv hv' => ?_⟩
  rw [ht] at hv'
  by_cases hk : k = s.cur
  · subst hk
    rw [← unit?_eq, hu, Option.some_inj] at hv
    rw [state_setUnit_units, List.getElem?_set_self (cur_lt_of_unit? hu), Option.some_inj] at hv'
    subst hv hv'
    exact ⟨hoff, hbase, hlen, fun hne => absurd rfl hne⟩
  · rw [setUnit_other s r' hk, hv, Option.some_inj] at hv'
    subst hv'
    exact ⟨rfl, rfl, rfl, fun _ => ⟨rfl, rfl, rfl⟩⟩

/-- Accepting a command changes the units other than the one in hand in their records of races only. -/
theorem commandFrame_accept {s : State} {r : PkuUnit} (hu : s.unit? = some r) (w : Word) :
    CommandFrame s (acceptCommand s (r.store w)) := by
  refine ⟨by simp [acceptCommand], fun k v v' hv hv' => ?_⟩
  by_cases hk : k = s.cur
  · subst hk
    rw [← unit?_eq, hu, Option.some_inj] at hv
    rw [acceptCommand_unit (cur_lt_of_unit? hu), Option.some_inj] at hv'
    subst hv hv'
    exact ⟨rfl, rfl, rfl, fun hne => absurd rfl hne⟩
  · rw [acceptCommand_other s _ hk, hv, Option.map_some, Option.some_inj] at hv'
    subst hv'
    exact ⟨rfl, rfl, rfl, fun _ => ⟨rfl, rfl, rfl⟩⟩

theorem exec_frame {i : Instr} {s t : State} (h : exec i s = .next t) : CommandFrame s t := by
  obtain ⟨r, hu, ⟨f, rfl⟩ | rfl | ⟨d, m, n, rfl⟩⟩ := exec_cases h
  · exact commandFrame_setUnit hu rfl rfl rfl rfl
  · exact commandFrame_accept hu _
  · exact commandFrame_setUnit hu rfl rfl rfl rfl

/-- Settles O51: `exec_frame`, of every command. -/
theorem commandsKeepOperandRegisters : Obligations.CommandsKeepOperandRegisters :=
  fun _ _ _ h => exec_frame h

/-! ## Error bits -/

/-- Bits 5:1 of STATUS as a read shows them after a write to it (R23). -/
theorem w1c_toWord_bit (st : Status) (w : Word) {k : Nat} (h1 : 1 ≤ k) (h5 : k ≤ 5) :
    (st.w1c w).toWord.getLsbD k = (st.toWord.getLsbD k && !w.getLsbD k) := by
  have hk : k < 32 := by omega
  rw [Status.w1c, status_toWord_bits _ _ _ _ _ _ k hk, status_toWord_bits _ _ _ _ _ _ k hk]
  interval_cases k <;> rfl

/-- A write to STATUS leaves BUSY as a read shows it (R23). -/
theorem w1c_toWord_busy (st : Status) (w : Word) : (st.w1c w).toWord.getLsbD 0 = st.toWord.getLsbD 0 := by
  have h0 : 0 < 32 := by decide
  rw [Status.w1c, status_toWord_bits _ _ _ _ _ _ 0 h0, status_toWord_bits _ _ _ _ _ _ 0 h0]
  rfl

/-- Bits 31:6 of STATUS read 0 (R23). -/
theorem toWord_high_bit (st : Status) {k : Nat} (h6 : 6 ≤ k) : st.toWord.getLsbD k = false := by
  by_cases hk : k < 32
  · rw [status_toWord_bits _ _ _ _ _ _ k hk]
    repeat rw [if_neg (by omega)]
  · exact BitVec.getLsbD_of_ge _ _ (by omega)

/-- The bit of STATUS that a word write to it clears is one that the word has 1, and it is a bit of the unit written. -/
theorem statusWrite_clears {s t : State} {u v : Nat} {r r' x : PkuUnit} {f : FaultCode} {w : Word}
    (ht : t.units = s.units.set v { x with status := x.status.w1c w }) (hv : s.units[v]? = some x)
    (hr : s.units[u]? = some r) (hr' : t.units[u]? = some r') (hset : r.status.toWord.getLsbD f.code = true)
    (hclear : r'.status.toWord.getLsbD f.code = false) :
    x = r ∧ w.getLsbD f.code = true ∧ r' = { r with status := r.status.w1c w } := by
  rw [ht] at hr'
  by_cases huv : u = v
  · subst huv
    rw [hr, Option.some_inj] at hv
    rw [List.getElem?_set_self (List.getElem?_eq_some_iff.mp hr).1, Option.some_inj] at hr'
    subst hv hr'
    rw [w1c_toWord_bit _ _ (by cases f <;> decide) (by cases f <;> decide), hset] at hclear
    exact ⟨rfl, by simpa using hclear, rfl⟩
  · rw [List.getElem?_set_ne (Ne.symm huv), hr, Option.some_inj] at hr'
    rw [← hr', hset] at hclear
    cases hclear

/-- A completion turn clears no error bit. -/
theorem completeTurn_errors {s t : State} {u : Nat} (h : completeTurn u s = .next t) : ErrorsKept s t := by
  unfold completeTurn at h
  split at h
  · cases h
  · split at h
    · split at h
      · exact (exec_errors h : ErrorsKept { s with cur := u } t)
      · cases h
    · cases h
      exact errorsKept_same rfl

/-- The host's turn makes at most one access, and as a word write to a register only the one `hostWrite?` tells (R77). -/
theorem hostTurn_access {s t : State} (h : hostTurn s = .next t) :
    t.units = s.units ∨ ∃ op s', busAccess op s = .next s' ∧ t.units = s'.units ∧
      ∀ a w, op = .regWrite a .word w → hostWrite? s = some (a, w) := by
  unfold hostTurn at h
  split at h
  · cases h
    exact .inl rfl
  · rename_i st hst
    rcases runStmt_access h with hsame | ⟨op, s', hacc, hunits, hwr⟩
    · exact .inl hsame
    · refine .inr ⟨op, s', hacc, hunits, fun a w hop => ?_⟩
      obtain ⟨u, reg, e, v, rfl, hv, ha, rfl⟩ := hwr a w hop
      simp only [hostWrite?, hst, hv, ha]

/-- The next turn keeps every error bit, or it resets a unit, or it makes a word write to the STATUS of one (R23, R229). -/
theorem nextTurn_errors {s t : State} {q : List Turn} (h : runTurn (nextTurn s) { s with schedule := q } = .next t) :
    ErrorsKept s t ∨ (∃ u, nextTurn s = .reset u) ∨
      ∃ v x w, s.units[v]? = some x ∧ nextWrite? s = some (x.regbase + 8, w) ∧
        t.units = s.units.set v { x with status := x.status.w1c w } := by
  cases hturn : nextTurn s with
  | reset u => exact .inr (.inl ⟨u, rfl⟩)
  | complete u =>
    rw [hturn] at h
    exact .inl (completeTurn_errors (s := { s with schedule := q }) h)
  | access op =>
    rw [hturn] at h
    rcases busAccess_errors h with hkept | ⟨v, x, w, hx, rfl, rfl⟩
    · exact .inl hkept
    · exact .inr (.inr ⟨v, x, w, hx, by simp only [nextWrite?, hturn], rfl⟩)
  | host =>
    rw [hturn] at h
    rcases hostTurn_access h with hsame | ⟨op, s', hacc, hunits, hwrite⟩
    · exact .inl (errorsKept_same hsame)
    · rcases busAccess_errors hacc with hkept | ⟨v, x, w, hx, hop, rfl⟩
      · refine .inl fun k y y' f hy hy' => hkept k y y' f hy ?_
        rw [← hunits, hy']
      · have hw : nextWrite? s = some (x.regbase + 8, w) := by
          simp only [nextWrite?, hturn]
          exact hwrite _ w hop
        exact .inr (.inr ⟨v, x, w, hx, hw, hunits⟩)

/-- Settles O50, turn by turn: only a reset and a write to STATUS clear an error bit (`nextTurn_errors`). -/
theorem errorBitsAreSticky : Obligations.ErrorBitsAreSticky := by
  intro s t u r r' f h hr hr' hset hclear
  obtain ⟨q, hs⟩ := step_nextTurn s
  rw [hs] at h
  rcases nextTurn_errors h with hkept | ⟨v, hturn⟩ | ⟨v, x, w, hx, hw, hunits⟩
  · rw [hkept u r r' f hr hr' hset] at hclear
    cases hclear
  · rw [hturn] at h
    obtain ⟨rfl, hreset⟩ := resetUnit_errors h hr hr' hset hclear
    exact .inl ⟨hturn, hreset⟩
  · obtain ⟨rfl, hbit, hstatus⟩ := statusWrite_clears hunits hx hr hr' hset hclear
    exact .inr ⟨w, hw, hbit, hstatus⟩

end Sys2Proof.Machine
end

section
/-! Host accesses to the register block, register by register: O4, O33 to O40. -/

namespace Sys2Proof.Machine

open Sys2Proof

/-! ## What a write and a read of each kind of register answer -/

/-- A write to an operand register: stored when the unit is not busy, halted or not; otherwise lost, with EBUSY set (R35,
R228). -/
theorem writeReg_operand {reg : Reg} (hreg : reg ∈ operandRegs) {s : State} {u : Nat} {r : PkuUnit}
    (hu : s.units[u]? = some r) (w : Word) :
    writeReg u reg w s = if r.status.busy then .next (s.putUnit u (r.raise .ebusy))
      else .next (s.putUnit u (storeReg r w reg)) := by
  simp only [operandRegs, List.mem_cons, List.not_mem_nil, or_false] at hreg
  rcases hreg with rfl | rfl | rfl | rfl | rfl | rfl | rfl | rfl | rfl | rfl <;> simp only [writeReg, hu]

/-- A write to CMD of a busy unit is lost, with EBUSY set (R35). -/
theorem writeReg_cmd_busy {s : State} {u : Nat} {r : PkuUnit} (hu : s.units[u]? = some r) (hb : r.status.busy = true)
    (w : Word) : writeReg u .cmd w s = .next (s.putUnit u (r.raise .ebusy)) := by
  simp [writeReg, hu, hb]

/-- A write to CFG or an unused offset has no effect (R21, R32). -/
theorem writeReg_readOnly {reg : Reg} (hreg : reg ∈ readOnlyRegs) {s : State} {u : Nat} {r : PkuUnit}
    (hu : s.units[u]? = some r) (w : Word) : writeReg u reg w s = .next s := by
  simp only [readOnlyRegs, List.mem_cons, List.not_mem_nil, or_false] at hreg
  rcases hreg with rfl | rfl | rfl | rfl <;> simp only [writeReg, hu]

theorem writeReg_status {s : State} {u : Nat} {r : PkuUnit} (hu : s.units[u]? = some r) (w : Word) :
    writeReg u .status w s = .next (s.putUnit u { r with status := r.status.w1c w }) := by
  simp only [writeReg, hu]

/-- A read returns the word the register holds, when it is not DATA of a busy unit (R36). -/
theorem readReg_value {s : State} {u : Nat} {r : PkuUnit} {reg : Reg} (hu : s.units[u]? = some r)
    (h : r.status.busy = false ∨ isDataReg reg = false) :
    readReg u reg s = .next { s with rdReg := regWord s.addrw r reg } := by
  have hfree : (r.status.busy && isDataReg reg) = false := by rcases h with h | h <;> simp [h]
  simp [readReg, hu, hfree]

/-- A read of DATA while busy returns a draw (R36). -/
theorem readReg_busyData {s : State} {u : Nat} {r : PkuUnit} {reg : Reg} (hu : s.units[u]? = some r)
    (hb : r.status.busy = true) (hd : isDataReg reg = true) :
    readReg u reg s = .next { s with rdReg := Config.freeWord s.draws, draws := s.draws + 1 } := by
  simp [readReg, hu, hb, hd]

/-- An offset that is no multiple of 4 is no register's (R38). -/
theorem regAt_unaligned {o : Nat} (h : o % 4 ≠ 0) : regAt o = none := if_neg h

/-! ## Writes -/

/-- Settles O33: the store (`storeReg_word`) changes the one word. -/
theorem operandRegisterReadsBack : Obligations.OperandRegisterReadsBack := by
  intro reg hreg s u r w hblocks hu hb
  refine ⟨storeReg r w reg, ?_, storeReg_ptrw r w reg, storeReg_regbase r w reg, storeReg_status r w reg,
    storeReg_raced r w reg, storeReg_word s.addrw r w hreg⟩
  rw [busAccess_regWrite hblocks hu, writeReg_operand hreg hu, hb]
  rfl

/-- Settles O34, for CMD and for the operand registers. -/
theorem busyWriteSetsEbusy : Obligations.BusyWriteSetsEbusy := by
  intro reg hreg s u r w hblocks hu hb
  rw [busAccess_regWrite hblocks hu]
  rcases List.mem_cons.mp hreg with rfl | hreg
  · exact writeReg_cmd_busy hu hb w
  · exact (writeReg_operand hreg hu w).trans (if_pos hb)

/-- Settles O35, from the bits that STATUS reads as after the write. -/
theorem statusWriteOneToClear : Obligations.StatusWriteOneToClear := by
  intro s u r w hblocks hu
  have hwrite := (busAccess_regWrite hblocks hu .status w).trans (writeReg_status hu w)
  exact ⟨r.status.w1c w, hwrite, w1c_toWord_busy r.status w, fun _ => w1c_toWord_bit r.status w,
    fun _ => toWord_high_bit (r.status.w1c w)⟩

/-- Settles O4: the access is the first turn, reaches CMD of `u`, and is not ignored (`writeReg_cmd`). -/
theorem cmdWriteRunsDecodedCommand : Obligations.CmdWriteRunsDecodedCommand := by
  intro s u r i w rest hblocks hu hb hh hd hs
  rw [step_scheduled hs]
  have haccess := busAccess_regWrite (s := { s with schedule := rest }) hblocks hu .cmd w
  exact haccess.trans (writeReg_cmd hu hb hh hd)

/-! ## Reads -/

/-- Settles O39, by whether the read is of DATA of a busy unit. -/
theorem registerReads : Obligations.RegisterReads := by
  intro s u r reg hblocks hu
  rw [busAccess_regRead hblocks hu]
  exact ⟨readReg_value hu, fun ⟨hb, hd⟩ => ⟨_, _, readReg_busyData hu hb hd⟩⟩

/-- Settles O36: no write to these registers has an effect, and the unused offsets hold zero. -/
theorem readOnlyRegistersIgnoreWrites : Obligations.ReadOnlyRegistersIgnoreWrites := by
  intro reg hreg s u r w hblocks hu
  rw [busAccess_regWrite hblocks hu, busAccess_regRead hblocks hu]
  refine ⟨writeReg_readOnly hreg hu w, fun hcfg => ?_⟩
  simp only [readOnlyRegs, List.mem_cons, List.not_mem_nil, or_false] at hreg
  rcases hreg with rfl | rfl | rfl | rfl
  · exact absurd rfl hcfg
  all_goals exact readReg_value hu (.inr rfl)

/-- Settles O38: the address reaches the unit's block (`unitAt_of_apart`), where the size or the offset is not decoded. -/
theorem undecodedAccessHasNoEffect : Obligations.UndecodedAccessHasNoEffect := by
  intro s u r offset size w hblocks hu hlt hundecoded
  by_cases hsize : size = .word
  · have halign : offset % 4 ≠ 0 := hundecoded.resolve_left (not_not_intro hsize)
    simp [busAccess, unitAt_of_apart hblocks hu hlt, hu, regAt_unaligned halign]
  · simp [busAccess, unitAt_of_apart hblocks hu hlt, hu, hsize]

/-! ## CFG and reset -/

/-- A word read of CFG, busy or not (R21, R36). -/
theorem busAccess_readCfg {s : State} {u : Nat} {r : PkuUnit} (hblocks : BlocksApart s.units)
    (hu : s.units[u]? = some r) :
    busAccess (.regRead r.regbase .word) s = .next { s with rdReg := cfgWord s.addrw r.ptrw } :=
  (busAccess_regRead hblocks hu .cfg).trans (readReg_value hu (.inr rfl))

/-- CFG as a number: ADDRW from bit 8 on, the width code in bits 2:0 (R21). -/
theorem cfgWord_toNat {addrw : Nat} (h : addrw < 2 ^ 7) (p : PtrWidth) :
    (cfgWord addrw p).toNat = addrw * 2 ^ 8 + p.code.toNat := by
  have hcode : p.code.toNat < 2 ^ 3 := p.code.isLt
  simp only [cfgWord, BitVec.toNat_append, BitVec.toNat_ofNat, Nat.mod_eq_of_lt h, Nat.zero_mod, Nat.zero_shiftLeft,
    Nat.zero_or, Nat.or_zero]
  rw [Nat.shiftLeft_eq, Nat.shiftLeft_eq, Nat.mul_assoc, ← Nat.pow_add, ← Nat.shiftLeft_eq,
    ← Nat.shiftLeft_add_eq_or_of_lt (by omega), Nat.shiftLeft_eq]

/-- Settles O37: CFG is computed from the parameters, which neither a write nor a reset changes (`UnitChange.keeps_params`). -/
theorem cfgReportsParameters : Obligations.CfgReportsParameters := by
  intro s u r hblocks hu _ hle
  refine ⟨cfgWord s.addrw r.ptrw, busAccess_readCfg hblocks hu, ?_, fun w => ?_, fun t ht => ?_⟩
  · rw [cfgWord_toNat (by omega)]
    cases r.ptrw <;> rfl
  · exact (busAccess_regWrite hblocks hu .cfg w).trans (writeReg_readOnly (by decide) hu w)
  · have hunits := runTurn_units ht
    have ⟨haddrw, _, _, hchange⟩ := hunits
    obtain ⟨r', hr', hc⟩ := hchange u r hu
    obtain ⟨hptrw, hregbase⟩ := hc.keeps_params
    have hread := busAccess_readCfg (hunits.keeps_blocks hblocks) hr'
    rw [← haddrw]
    rwa [hptrw, hregbase] at hread

/-- Settles O40, register by register of a unit right after reset. -/
theorem resetRegisterValues : Obligations.ResetRegisterValues := by
  intro r hr
  rw [List.mem_singleton.mp hr]
  refine ⟨rfl, rfl, fun reg => ?_⟩
  cases reg <;> rfl

end Sys2Proof.Machine
end

section
/-! Memory rules of 20_memory.md: fields read by position (O29), host accesses to `Mem` (O43, O44), races (O11, O12, O20,
O21), and the completion steps of units on disjoint spans (O45). -/

namespace Sys2Proof.Machine

open Sys2Proof

/-! ## Fields by position -/

/-- Extract at a combined width is the concatenation of the members, the first most significant (R54). -/
theorem extract_add (m : Memory) (base o W W' : Nat) :
    extract m base o (W + W') = extract m base o W * 2 ^ W' + extract m base (o + W) W' := by
  induction W' with
  | zero => simp [extract]
  | succ n ih =>
    rw [← Nat.add_assoc, extract, extract, ih, Nat.pow_succ, Nat.add_assoc o W n]
    ring

/-- Settles O29: the bits from `extract_testBit`, the concatenation from `extract_add`. -/
theorem fieldsAreReadByPosition : Obligations.FieldsAreReadByPosition := by
  intro m base o W
  refine ⟨fun k => ?_, extract_add m base o W⟩
  by_cases hk : k < W
  · simp [hk, extract_testBit m base o W hk]
  · simp [hk, extract_testBit_ge m base o W (Nat.le_of_not_lt hk)]

/-! ## Host accesses to `Mem` -/

theorem writeMem_inMem {s : State} {a : Nat} (h : a < 2 ^ s.addrw) (b : Byte) :
    writeMem a b s = .next { s with mem := Memory.write s.mem a b, units := s.units.map (PkuUnit.noteWrites [a]) } :=
  if_pos h

/-- A byte that no PACK in flight spans reads as it is (R51). -/
theorem readMem_quiet {s : State} {a : Nat} (h : a < 2 ^ s.addrw) (hq : ∀ v ∈ s.units, a ∉ v.writeSpan) :
    readMem a s = .next { s with rdMem := Memory.read s.mem a } := by
  have hany : ¬ s.units.any (fun r => r.writeSpan.contains a) = true := by simpa using hq
  exact (if_pos h).trans (if_neg hany)

/-- A byte that a PACK in flight spans reads as a draw (R63 b). -/
theorem readMem_raced {s : State} {a : Nat} (h : a < 2 ^ s.addrw) (hr : ∃ v ∈ s.units, a ∈ v.writeSpan) :
    readMem a s = .next { s with rdMem := Config.freeByte s.draws, draws := s.draws + 1 } := by
  have hany : s.units.any (fun r => r.writeSpan.contains a) = true := by simpa using hr
  exact (if_pos h).trans (if_pos hany)

/-- Settles O43: the byte by the rules of `Memory.write`, the units by `PkuUnit.noteWrites` of the one address. -/
theorem hostMemoryWrite : Obligations.HostMemoryWrite := by
  intro s a b hwf ha
  refine ⟨_, _, writeMem_inMem ha b, write_wf hwf a b, read_write_same hwf a b, fun x hx => read_write_other hx b,
    List.length_map _, fun k v hv => ⟨(v.noteWrites [a]).raced, ?_, fun hout => ?_, fun hin x => ?_⟩⟩
  · rw [List.getElem?_map, hv]
    rfl
  · have houtside : ∀ x ∈ v.span, x ∉ [a] := fun x hx hxa => hout (List.mem_singleton.mp hxa ▸ hx)
    rw [noteWrites_outside houtside]
  · rw [mem_raced_noteWrites, List.mem_singleton]
    exact or_congr_right ⟨And.right, fun hx => ⟨hx ▸ hin, hx⟩⟩

/-- Settles O44, by whether a PACK in flight spans the byte. -/
theorem hostMemoryRead : Obligations.HostMemoryRead :=
  fun _ _ ha => ⟨readMem_quiet ha, fun hr => ⟨_, _, readMem_raced ha hr⟩⟩

/-! ## Races noted when a command is accepted -/

theorem span_accept (r : PkuUnit) (i : Instr) : (r.store (encode i)).accept.span =
    spanAddrs r.base.toNat r.off.toNat (typeWidth r.ptrw i.typeCode) :=
  span_of_inFlight (inFlight_accept r i)

/-- Settles O11: neither side writes a byte of the other's span, since neither writes or the spans are apart
(`acceptCommand_apart`). -/
theorem unpacksDoNotRace : Obligations.UnpacksDoNotRace := by
  intro i s r hidle hfits hothers
  rw [exec_accept hidle hfits, acceptCommand_apart fun k v hk hv => ?_]
  · rfl
  rw [span_accept]
  rcases hothers k v hk hv with ⟨hi, hunpack⟩ | hapart
  · refine ⟨fun a _ => ?_, fun a _ hw => ?_⟩
    · simp [writeSpan_of_unpack hunpack]
    · have hpack := (mem_writeSpan_accept.mp hw).1
      rw [hi] at hpack
      cases hpack
  · exact ⟨fun a ha hw => hapart a ha (writeSpan_subset hw),
      fun a ha hw => hapart a (mem_writeSpan_accept.mp hw).2 ha⟩

/-- Settles O12: the other unit's record by `acceptCommand_other`, the accepted command's by `acceptCommand_unit`. -/
theorem overlappingPackRaces : Obligations.OverlappingPackRaces := by
  intro i s t r k v a hidle hfits hk hv ha h
  rw [exec_accept hidle hfits] at h
  cases h
  refine ⟨fun hi hspan => ?_, fun hwrite => ?_⟩
  · refine ⟨v.noteWrites (r.store (encode i)).accept.writeSpan, ?_, ?_⟩
    · rw [acceptCommand_other s _ hk, hv]
      rfl
    · exact mem_raced_noteWrites.mpr (.inr ⟨hspan, mem_writeSpan_accept.mpr ⟨hi, ha⟩⟩)
  · refine ⟨_, acceptCommand_unit (cur_lt_of_unit? hidle.1) _, mem_raced_noteWrites.mpr (.inr ⟨?_, ?_⟩)⟩
    · rwa [span_accept]
    · exact mem_otherWrites.mpr ⟨k, v, hk, hv, hwrite⟩

/-! ## Completion after a race -/

/-- The completion step of an UNPACK answers a next state whatever races were met (R63 c). -/
theorem completeUnpack_answers {W : Nat} {s : State} {r : PkuUnit} (ext : Nat → Nat → Data)
    (hm : spanInMem s.addrw r.base.toNat r.off.toNat W = true) :
    ∃ d n, completeUnpack W ext s r =
      .next { s.setUnit ({ r with data := d } : PkuUnit).finish with draws := n } := by
  rw [completeUnpack, if_pos hm]
  split
  · exact ⟨_, s.draws, rfl⟩
  · exact ⟨_, _, rfl⟩

/-- Settles O20, from the completion step of any UNPACK whose span is inside `Mem`. -/
theorem racedUnpackCompletes : Obligations.RacedUnpackCompletes := by
  intro i s r hi hu hb hfits
  rw [exec_busy_unpack hi hu hb]
  exact completeUnpack_answers _ (spanInMem_of_fits hfits)

/-- Settles O21: the free bytes are written at raced addresses of the span only (`scramble_read_other`). -/
theorem racedPackKeepsOtherBytes : Obligations.RacedPackKeepsOtherBytes := by
  intro i s r hi _ hu hb hfits
  rw [exec_busy_pack hi hu hb, completePack, if_pos (spanInMem_of_fits hfits)]
  refine ⟨_, _, rfl, fun a ha => scramble_read_other (fun hmem => ?_) _⟩
  obtain ⟨hspan, hraced⟩ := mem_racedSpan.mp hmem
  exact ha.elim (· hspan) (· hraced)

/-! ## Two completion steps on disjoint spans -/

/-- The unit after the completion step of command `i` on memory `m`, no race met (R112). -/
def performedUnit (i : Instr) (m : Memory) (r : PkuUnit) : PkuUnit :=
  { r with
    data := match i.op with
      | .unpack => typeExtend i.typeCode (typeWidth r.ptrw i.typeCode)
          (extract m r.base.toNat r.off.toNat (typeWidth r.ptrw i.typeCode))
      | .pack => r.data
    status := finishedStatus r.status }

/-- The memory after the completion step of command `i` of unit `r` on memory `m`, no race met (R112). -/
def performedMem (i : Instr) (m : Memory) (r : PkuUnit) : Memory :=
  match i.op with
  | .unpack => m
  | .pack => insertField m r.base.toNat r.off.toNat (typeWidth r.ptrw i.typeCode)
      (packValue r.data (typeWidth r.ptrw i.typeCode))

/-- The completion step of any command that met no race, as one equation. -/
theorem exec_performed {i : Instr} {s : State} {r : PkuUnit} (h : Performing s r (typeWidth r.ptrw i.typeCode)) :
    exec i s = .next { s.setUnit (performedUnit i s.mem r) with mem := performedMem i s.mem r } := by
  unfold performedUnit performedMem
  cases hi : i.op with
  | unpack => exact exec_unpack_done hi h
  | pack => exact exec_pack_done hi h

section
variable {i : Instr} {m m' : Memory} {r : PkuUnit}

theorem performedMem_wf (h : Memory.wf m = true) : Memory.wf (performedMem i m r) = true := by
  unfold performedMem
  split
  · exact h
  · exact insertField_wf h _ _ _ _

/-- A completion step writes no byte outside its command's span (R58). -/
theorem performedMem_read_outside (h : Memory.wf m = true) (hi : r.inFlight = some i) {x : Nat} (hx : x ∉ r.span) :
    Memory.read (performedMem i m r) x = Memory.read m x := by
  rw [span_of_inFlight hi] at hx
  unfold performedMem
  split
  · rfl
  · exact insertField_read_outside h hx

/-- A byte after a completion step depends on that byte of memory before it only (R58). -/
theorem performedMem_read_congr (h : Memory.wf m = true) (h' : Memory.wf m' = true) {x : Nat}
    (hx : Memory.read m x = Memory.read m' x) :
    Memory.read (performedMem i m r) x = Memory.read (performedMem i m' r) x := by
  unfold performedMem
  split
  · exact hx
  · exact insertField_read_congr h h' hx

/-- The unit after a completion step depends on the bytes of its command's span only (R58). -/
theorem performedUnit_congr (hi : r.inFlight = some i) (h : ∀ x ∈ r.span, Memory.read m x = Memory.read m' x) :
    performedUnit i m r = performedUnit i m' r := by
  rw [span_of_inFlight hi] at h
  rw [performedUnit, performedUnit, extract_congr_span h]

end

/-- The memories after two commands on disjoint spans, in either order, are equal (R62). -/
theorem performedMem_comm {i j : Instr} {m : Memory} {a b : PkuUnit} (h : Memory.wf m = true)
    (hi : a.inFlight = some i) (hj : b.inFlight = some j) (hd : ∀ x ∈ a.span, x ∉ b.span) :
    performedMem j (performedMem i m a) b = performedMem i (performedMem j m b) a := by
  have ha : Memory.wf (performedMem i m a) = true := performedMem_wf h
  have hb : Memory.wf (performedMem j m b) = true := performedMem_wf h
  refine memory_ext (performedMem_wf ha) (performedMem_wf hb) fun x => ?_
  by_cases hx : x ∈ a.span
  · calc Memory.read (performedMem j (performedMem i m a) b) x
        = Memory.read (performedMem i m a) x := performedMem_read_outside ha hj (hd x hx)
      _ = Memory.read (performedMem i (performedMem j m b) a) x :=
          performedMem_read_congr h hb (performedMem_read_outside h hj (hd x hx)).symm
  · calc Memory.read (performedMem j (performedMem i m a) b) x
        = Memory.read (performedMem j m b) x := performedMem_read_congr ha h (performedMem_read_outside h hi hx)
      _ = Memory.read (performedMem i (performedMem j m b) a) x := (performedMem_read_outside hb hi hx).symm

/-- Unit `u` is `r`, with the command `i` in flight, its operands fitting and no race met. -/
def InFlightAt (s : State) (u : Nat) (r : PkuUnit) (i : Instr) : Prop :=
  s.units[u]? = some r ∧ r.inFlight = some i ∧ Fits s.addrw (typeWidth r.ptrw i.typeCode) r ∧ r.raced = []

/-- Under the invariant a busy unit with no race met has a command in flight whose operands fit (R113). -/
theorem Inv.inFlightAt {s : State} (h : Inv s) {u : Nat} {r : PkuUnit} (hu : s.units[u]? = some r)
    (hb : r.status.busy = true) (hr : r.raced = []) : ∃ i, InFlightAt s u r i := by
  obtain ⟨i, hcmd, hfits⟩ := (h.units r (List.mem_of_getElem? hu)).accepted hb
  exact ⟨i, hu, (if_pos hb).trans hcmd, hfits, hr⟩

theorem busy_of_inFlight {r : PkuUnit} {i : Instr} (h : r.inFlight = some i) : r.status.busy = true := by
  by_contra hb
  rw [inFlight_idle (Bool.eq_false_of_not_eq_true hb)] at h
  cases h

/-- A scheduled completion turn of a unit whose command met no race (R112). -/
theorem step_complete {s : State} {u : Nat} {r : PkuUnit} {i : Instr} {rest : List Turn} (h : InFlightAt s u r i)
    (hs : s.schedule = .complete u :: rest) :
    step s = .next { s with
      schedule := rest, cur := u, mem := performedMem i s.mem r,
      units := s.units.set u (performedUnit i s.mem r) } := by
  obtain ⟨hu, hi, hfits, hraced⟩ := h
  have hb := busy_of_inFlight hi
  have hd : decode r.cmd = .ok i := by rwa [PkuUnit.inFlight, if_pos hb, decode?_eq_some] at hi
  have hperf : Performing { s with schedule := rest, cur := u } r (typeWidth r.ptrw i.typeCode) :=
    ⟨hu, hb, hfits, hraced⟩
  rw [step_scheduled hs, runTurn, completeTurn_busy (s := { s with schedule := rest }) hu hb hd]
  exact exec_performed hperf

/-- The completion turns of two units one after the other: the second reads the memory the first left. -/
theorem run_two_completions {s : State} {u v : Nat} {a b : PkuUnit} {i j : Instr} {rest : List Turn} (huv : u ≠ v)
    (ha : InFlightAt s u a i) (hb : InFlightAt s v b j) :
    Host.Core.run Sys2Proof.core 2 { s with schedule := .complete u :: .complete v :: rest } = .next { s with
      schedule := rest, cur := v, mem := performedMem j (performedMem i s.mem a) b,
      units := (s.units.set u (performedUnit i s.mem a)).set v (performedUnit j (performedMem i s.mem a) b) } := by
  obtain ⟨hv, hj⟩ := hb
  have hv' : (s.units.set u (performedUnit i s.mem a))[v]? = some b := (List.getElem?_set_ne huv).trans hv
  have hfirst := step_complete (s := { s with schedule := .complete u :: .complete v :: rest }) ha rfl
  have hsecond := step_complete (s := { s with
    schedule := .complete v :: rest, cur := u, mem := performedMem i s.mem a,
    units := s.units.set u (performedUnit i s.mem a) }) ⟨hv', hj⟩ rfl
  exact (run_succ hfirst).trans (run_succ hsecond)

/-- Settles O45: neither step reads or writes a byte that the other writes (`performedUnit_congr`,
`performedMem_comm`). -/
theorem disjointUnitsCommute : Obligations.DisjointUnitsCommute := by
  intro s u v a b rest hinv huv hu hv hbusyA hbusyB hracedA hracedB hd
  obtain ⟨i, ha⟩ := hinv.inFlightAt hu hbusyA hracedA
  obtain ⟨j, hb⟩ := hinv.inFlightAt hv hbusyB hracedB
  have ⟨_, hi, _⟩ := ha
  have ⟨_, hj, _⟩ := hb
  have hunitB : performedUnit j (performedMem i s.mem a) b = performedUnit j s.mem b :=
    performedUnit_congr hj fun x hx => performedMem_read_outside hinv.memWf hi fun hxa => hd x hxa hx
  have hunitA : performedUnit i (performedMem j s.mem b) a = performedUnit i s.mem a :=
    performedUnit_congr hi fun x hx => performedMem_read_outside hinv.memWf hj (hd x hx)
  refine ⟨_, _, run_two_completions huv ha hb, run_two_completions huv.symm hb ha, ?_⟩
  rw [hunitA, hunitB, performedMem_comm hinv.memWf hi hj hd, List.set_comm _ _ huv]

end Sys2Proof.Machine
end

section
/-! The decoder accepts exactly the 26 words of the opcode map, which are the encoder's: O2. -/

namespace Sys2Proof.Machine

open Sys2Proof

theorem decode_encode (i : Instr) : decode (encode i) = .ok i :=
  decode?_eq_some.mp (decode?_encode i)

/-- The fields of the command of an operation and a type code are their codes, with Z zero (R70). -/
theorem ofParts_fields (op : Op) (tc : TypeCode) :
    (Instr.ofParts op tc).fields = { op := op.code, wc := tc.wc, s := tc.s, z := 0#26 } := by
  cases op <;> cases tc <;> rfl

/-- Fields that decode are those of their command (R74, R75). -/
theorem decodeFields_ok {f : CmdFields} {i : Instr} (h : decodeFields f = .ok i) : f = i.fields := by
  unfold decodeFields at h
  split at h
  case isFalse => cases h
  case isTrue hz =>
    split at h
    case h_1 => cases h
    case h_2 op hop =>
      split at h
      case h_1 => cases h
      case h_2 tc htype =>
        cases h
        obtain ⟨hwc, hs⟩ := decodeType_ok htype
        rw [ofParts_fields, ← decodeOp_ok hop, ← hwc, ← hs, ← hz]

/-- A word is its fields put together (`toWord_ofWord`), so a word that decodes is its command's (R74). -/
theorem decode_eq_ok_iff {w : Word} {i : Instr} : decode w = .ok i ↔ w = encode i := by
  refine ⟨fun h => ?_, fun h => h ▸ decode_encode i⟩
  rw [encode, ← decodeFields_ok h, toWord_ofWord]

/-- The opcode map has a row for every command, and each row holds its command's word (R74). -/
theorem mem_opcodeMap_iff {w : Word} {i : Instr} : (i, w) ∈ opcodeMap ↔ w = encode i := by
  have hrows : ∀ row ∈ opcodeMap, row.2 = encode row.1 := by decide
  have hcommands : (i, encode i) ∈ opcodeMap := by cases i <;> decide
  exact ⟨hrows (i, w), fun h => h ▸ hcommands⟩

/-- Settles O2: both sides are the encoder's words (`decode_eq_ok_iff`, `mem_opcodeMap_iff`). -/
theorem decodeAcceptsExactlyTheEncodings : Obligations.DecodeAcceptsExactlyTheEncodings :=
  fun _ _ => ⟨decode_eq_ok_iff.trans mem_opcodeMap_iff.symm, decode_eq_ok_iff⟩

end Sys2Proof.Machine
end

section
/-! The host's statements (R77, R78): `cmd` (O5), `wait` (O55), `setdata` (O53) and `getdata` (O54). -/

namespace Sys2Proof.Machine

open Sys2Proof

/-! ## One statement -/

/-- A scheduled turn of the host runs the statement at its position (R77). -/
theorem step_hostStmt {s : State} {st : HostStmt} {rest : List Turn} (hs : s.schedule = .host :: rest)
    (hst : s.host.prog[s.host.pos]? = some st) : step s = runStmt st { s with schedule := rest } := by
  rw [step_scheduled hs]
  simp only [runTurn, hostTurn, hst]

section
variable {s : State} {u : Nat} {r : PkuUnit} (hblocks : BlocksApart s.units) (hu : s.units[u]? = some r)
include hblocks hu

/-- `wr` writes the low 32 bits of the expression's value to the register (R77). -/
theorem runStmt_wr {e : Expr} {v : Int} (hv : evalExpr s.host.vars e = some v) (reg : Reg) :
    runStmt (.wr u reg e) s = andThen (writeReg u reg (BitVec.ofInt 32 v) s) advanceHost := by
  simp only [runStmt, hv, regAddr?, hu, busAccess_regWrite hblocks hu]

/-- `rd` binds the name to the word the register holds, when it is not DATA of a busy unit (R36, R77). -/
theorem runStmt_rd {reg : Reg} (h : r.status.busy = false ∨ isDataReg reg = false) (x : Var) :
    runStmt (.rd u reg x) s =
      .next (bindAdvance x (regWord s.addrw r reg).toNat { s with rdReg := regWord s.addrw r reg }) := by
  simp only [runStmt, regAddr?, hu, busAccess_regRead hblocks hu, readReg_value hu h, andThen]

/-- `wait` looks at bit 0 of the word that STATUS reads as (R77). -/
theorem runStmt_wait : runStmt (.wait u) s = .next
    (if r.status.toWord.getLsbD 0 then { s with rdReg := r.status.toWord }
      else advanceHost { s with rdReg := r.status.toWord }) := by
  have hread : readReg u .status s = .next { s with rdReg := r.status.toWord } := readReg_value hu (.inr rfl)
  simp only [runStmt, regAddr?, hu, busAccess_regRead hblocks hu, hread, andThen]

end

/-- The literal of a `cmd` statement is the command's word (R77). -/
theorem ofInt_toNat (w : Word) : BitVec.ofInt 32 w.toNat = w := by
  rw [BitVec.ofInt_natCast, BitVec.ofNat_toNat, BitVec.setWidth_eq]

/-- Settles O5: the statement writes the command's word to CMD, which is not ignored (`writeReg_cmd`). -/
theorem hostCmdStatementIssues : Obligations.HostCmdStatementIssues := by
  intro s t u r i rest hblocks hu hb hh hs hst hexec
  rw [step_hostStmt hs hst, stmtCmd, runStmt_wr (s := { s with schedule := rest }) hblocks hu rfl, ofInt_toNat,
    writeReg_cmd (s := { s with schedule := rest }) hu hb hh (decode_encode i), hexec]
  rfl

/-- BUSY is bit 0 of the word that STATUS reads as (R23). -/
theorem status_toWord_busy (st : Status) : st.toWord.getLsbD 0 = st.busy :=
  status_toWord_bits st.busy st.done st.ecap st.eill st.ewrap st.ebusy 0 (by decide)

/-- Settles O55, by whether the unit is busy. -/
theorem waitPollsBusy : Obligations.WaitPollsBusy := by
  intro s u r rest hblocks hu hs hst
  rw [step_hostStmt hs hst, runStmt_wait (s := { s with schedule := rest }) hblocks hu, status_toWord_busy]
  cases r.status.busy <;> rfl

/-! ## Statements one after another -/

/-- The turns to come are `turns`, the host's statements to come are `stmts`, and unit `u` is `r`, not busy, in a register
block apart from the others. -/
structure HostAt (s : State) (u : Nat) (r : PkuUnit) (turns : List Turn) (stmts : List HostStmt) : Prop where
  blocks : BlocksApart s.units
  unit : s.units[u]? = some r
  idle : r.status.busy = false
  turns : s.schedule = turns
  stmts : s.host.prog.drop s.host.pos = stmts

section
variable {s : State} {u : Nat} {r : PkuUnit} {turns : List Turn} {st : HostStmt} {stmts : List HostStmt}

/-- The host's turn runs the first of the statements to come. -/
theorem HostAt.step_eq (h : HostAt s u r (.host :: turns) (st :: stmts)) :
    step s = runStmt st { s with schedule := turns } := by
  refine step_hostStmt h.turns ?_
  rw [← List.head?_drop, h.stmts, List.head?_cons]

/-- After the first statement, the others are to come. -/
theorem HostAt.drop_succ (h : HostAt s u r turns (st :: stmts)) : s.host.prog.drop (s.host.pos + 1) = stmts := by
  rw [← List.tail_drop, h.stmts, List.tail_cons]

/-- A `wr` to an operand register of the unit stores the word (R35, R77). -/
theorem HostAt.step_wr {reg : Reg} {e : Expr} {v : Int} (h : HostAt s u r (.host :: turns) (.wr u reg e :: stmts))
    (hreg : reg ∈ operandRegs) (hv : evalExpr s.host.vars e = some v) :
    ∃ t, step s = .next t ∧ HostAt t u (storeReg r (BitVec.ofInt 32 v) reg) turns stmts ∧ t.mem = s.mem ∧
      t.host = { s.host with pos := s.host.pos + 1 } := by
  have hlt := (List.getElem?_eq_some_iff.mp h.unit).1
  refine ⟨advanceHost (({ s with schedule := turns } : State).putUnit u (storeReg r (BitVec.ofInt 32 v) reg)),
    ?_, ⟨?_, ?_, ?_, rfl, h.drop_succ⟩, rfl, rfl⟩
  · rw [h.step_eq, runStmt_wr (s := { s with schedule := turns }) h.blocks h.unit hv,
      writeReg_operand (s := { s with schedule := turns }) hreg h.unit, h.idle]
    rfl
  · exact blocksApart_set h.unit (storeReg_regbase r _ reg) h.blocks
  · exact List.getElem?_set_self hlt
  · rw [storeReg_status, h.idle]

/-- A `rd` of a register of the unit binds the name to its word and changes no register (R36, R77). -/
theorem HostAt.step_rd {reg : Reg} {x : Var} (h : HostAt s u r (.host :: turns) (.rd u reg x :: stmts)) :
    ∃ t, step s = .next t ∧ HostAt t u r turns stmts ∧ t.units = s.units ∧ t.mem = s.mem ∧
      t.host = { s.host with
        pos := s.host.pos + 1, vars := bindVar s.host.vars x (regWord s.addrw r reg).toNat } :=
  ⟨_, h.step_eq.trans (runStmt_rd (s := { s with schedule := turns }) h.blocks h.unit (.inl h.idle) x),
    ⟨h.blocks, h.unit, h.idle, rfl, h.drop_succ⟩, rfl, rfl, rfl⟩

/-- A `let` binds the name to the expression's value and makes no access (R77). -/
theorem HostAt.step_let {x : Var} {e : Expr} {v : Int} (h : HostAt s u r (.host :: turns) (.letE x e :: stmts))
    (hv : evalExpr s.host.vars e = some v) :
    step s = .next (bindAdvance x v { s with schedule := turns }) := by
  rw [h.step_eq]
  simp only [runStmt, hv]

end

/-! ## DATA as four words -/

/-- A 128-bit value is its four words (R20). -/
theorem data_ext {x y : Data} (h : ∀ k < 4, x.extractLsb' (32 * k) 32 = y.extractLsb' (32 * k) 32) : x = y := by
  apply BitVec.eq_of_getLsbD_eq
  intro i hi
  have hbit := congrArg (BitVec.getLsbD · (i % 32)) (h (i / 32) (by omega))
  have hmod : i % 32 < 32 := Nat.mod_lt _ (by decide)
  simpa only [BitVec.getLsbD_extractLsb', hmod, decide_true, Bool.true_and, Nat.div_add_mod] using hbit

/-- A word of a host number's 128-bit pattern is the slice at its place (R8, R78). -/
theorem ofInt_lane (v : Int) {lo : Nat} (h : lo ≤ 96) :
    (BitVec.ofInt 128 v).extractLsb' lo 32 = BitVec.ofInt 32 (hostSlice (lo + 31) lo v) := by
  apply BitVec.eq_of_getLsbD_eq
  intro k hk
  rw [hostSlice_word_bits v lo hk (w := 128) (by omega), BitVec.getLsbD_extractLsb', decide_eq_true hk, Bool.true_and]

/-- The unit after a word is written to each of DATA0 to DATA3. -/
def storeData (r : PkuUnit) (w0 w1 w2 w3 : Word) : PkuUnit :=
  storeReg (storeReg (storeReg (storeReg r w0 .data0) w1 .data1) w2 .data2) w3 .data3

/-- Each of the four stores writes its word of DATA and leaves the others (`storeReg_word`). -/
theorem storeData_word (addrw : Nat) (r : PkuUnit) (w0 w1 w2 w3 : Word) (reg : Reg) :
    regWord addrw (storeData r w0 w1 w2 w3) reg =
      if reg = .data3 then w3 else if reg = .data2 then w2 else if reg = .data1 then w1
      else if reg = .data0 then w0 else regWord addrw r reg := by
  rw [storeData, storeReg_word, storeReg_word, storeReg_word, storeReg_word] <;> decide

/-- Storing the four words of a 128-bit value leaves the value in DATA and changes nothing else of the unit. -/
theorem storeData_lanes (r : PkuUnit) (d : Data) :
    storeData r (d.extractLsb' 0 32) (d.extractLsb' 32 32) (d.extractLsb' 64 32) (d.extractLsb' 96 32) =
      { r with data := d } := by
  have hword := storeData_word 0 r (d.extractLsb' 0 32) (d.extractLsb' 32 32) (d.extractLsb' 64 32)
    (d.extractLsb' 96 32)
  have hdata : (storeData r (d.extractLsb' 0 32) (d.extractLsb' 32 32) (d.extractLsb' 64 32)
      (d.extractLsb' 96 32)).data = d := by
    refine data_ext fun k hk => ?_
    interval_cases k
    · exact hword .data0
    · exact hword .data1
    · exact hword .data2
    · exact hword .data3
  exact congrArg (fun x => ({ r with data := x } : PkuUnit)) hdata

/-- The four words of DATA, each at its weight, add up to it (R8, R78). -/
theorem data_toNat_words (d : Data) :
    ((d.extractLsb' 96 32).toNat : Int) * 2 ^ 96 + ((d.extractLsb' 64 32).toNat * 2 ^ 64 +
      ((d.extractLsb' 32 32).toNat * 2 ^ 32 + (d.extractLsb' 0 32).toNat)) = d.toNat := by
  have hd : d.toNat < 2 ^ 128 := d.isLt
  simp only [BitVec.extractLsb'_toNat, Nat.shiftRight_eq_div_pow]
  omega

/-- `d3 ++ d2 ++ d1 ++ d0` is DATA when the four names hold its words (R78). -/
theorem evalExpr_exprData {vs : List (Var × Int)} {d : Data}
    (h : ∀ k < 4, lookupVar vs (.d k) = some ((d.extractLsb' (32 * k) 32).toNat : Int)) :
    evalExpr vs exprData = some (d.toNat : Int) := by
  simp only [exprData, evalExpr, h 0 (by decide), h 1 (by decide), h 2 (by decide), h 3 (by decide)]
  rw [← data_toNat_words d]

/-- Settles O53: four stores (`HostAt.step_wr`) of the four words of the number's pattern (`ofInt_lane`). -/
theorem setdataWritesData : Obligations.SetdataWritesData := by
  intro s u r v tail rest hblocks hu hb hs hprog
  have h0 : HostAt s u r ([.host, .host, .host, .host] ++ rest) (stmtsSetdata u (.lit v) ++ tail) :=
    ⟨hblocks, hu, hb, hs, hprog⟩
  obtain ⟨s1, hstep0, h1, hmem1, hhost1⟩ := h0.step_wr (by decide) rfl
  obtain ⟨s2, hstep1, h2, hmem2, hhost2⟩ := h1.step_wr (by decide) rfl
  obtain ⟨s3, hstep2, h3, hmem3, hhost3⟩ := h2.step_wr (by decide) rfl
  obtain ⟨s4, hstep3, h4, hmem4, hhost4⟩ := h3.step_wr (by decide) rfl
  have hrun : Host.Core.run Sys2Proof.core 4 s = .next s4 :=
    (run_succ hstep0).trans ((run_succ hstep1).trans ((run_succ hstep2).trans (run_succ hstep3)))
  refine ⟨s4, hrun, ?_, ?_, ?_, h4.turns⟩
  · rw [h4.unit, ← storeData_lanes r (BitVec.ofInt 128 v), ofInt_lane v (by decide), ofInt_lane v (by decide),
      ofInt_lane v (by decide), ofInt_lane v (by decide)]
    rfl
  · rw [hmem4, hmem3, hmem2, hmem1]
  · rw [hhost4, hhost3, hhost2, hhost1]

/-- Settles O54: four reads (`HostAt.step_rd`) bind the words of DATA, and the `let` adds them up (`evalExpr_exprData`). -/
theorem getdataReadsData : Obligations.GetdataReadsData := by
  intro s u r x tail rest hblocks hu hb hs hprog
  have h0 : HostAt s u r ([.host, .host, .host, .host, .host] ++ rest) (stmtsGetdata u (.name x) ++ tail) :=
    ⟨hblocks, hu, hb, hs, hprog⟩
  obtain ⟨s1, hstep0, h1, hunits1, hmem1, hhost1⟩ := h0.step_rd
  obtain ⟨s2, hstep1, h2, hunits2, hmem2, hhost2⟩ := h1.step_rd
  obtain ⟨s3, hstep2, h3, hunits3, hmem3, hhost3⟩ := h2.step_rd
  obtain ⟨s4, hstep3, h4, hunits4, hmem4, hhost4⟩ := h3.step_rd
  have hnames : ∀ k < 4, lookupVar s4.host.vars (.d k) = some ((r.data.extractLsb' (32 * k) 32).toNat : Int) := by
    intro k hk
    rw [hhost4, hhost3, hhost2, hhost1]
    interval_cases k <;> simp [lookupVar_bindVar, regWord]
  have hstep4 := h4.step_let (evalExpr_exprData hnames)
  have hrun : Host.Core.run Sys2Proof.core 5 s =
      .next (bindAdvance (.name x) r.data.toNat { s4 with schedule := rest }) :=
    (run_succ hstep0).trans ((run_succ hstep1).trans ((run_succ hstep2).trans ((run_succ hstep3).trans
      (run_succ hstep4))))
  refine ⟨_, hrun, ?_, ?_, ?_, ?_, rfl⟩
  · exact (lookupVar_bindVar _ _ _ _).trans (if_pos rfl)
  · exact hunits4.trans (hunits3.trans (hunits2.trans hunits1))
  · exact hmem4.trans (hmem3.trans (hmem2.trans hmem1))
  · rw [state_bindAdvance_host, hhost4, hhost3, hhost2, hhost1]

end Sys2Proof.Machine
end

section
/-! The field kernel (40_field_kernel.md): how many bytes a field spans (O31) and where they lie (O30), the byte algorithms
(O24, O25), byte-aligned fields (O26), and what one Insert leaves of another field (O27, O28). -/

namespace Sys2Proof.Machine

open Sys2Proof

/-! ## The span -/

/-- Settles O31: each part is arithmetic on `nb = (o % 8 + W + 7) / 8`. -/
theorem spanByteCounts : Obligations.SpanByteCounts := by
  refine ⟨fun o W => ?_, fun o => ?_, fun o n hn => ?_, fun o W => ⟨by omega, ?_⟩⟩ <;> unfold spanBytes
  · omega
  · omega
  · split <;> omega
  · omega

/-- The span frame: `bit_off` bits before the field, the field, `sh` bits after it (R106). -/
theorem frameShift_add (o W : Nat) : frameShift o W + W + o % 8 = 8 * spanBytes o W := by
  unfold frameShift spanBytes
  omega

/-- Settles O30: the span begins at or above BASE and ends at or below BASE + LEN (`span_le_of_capacity`). -/
theorem acceptedSpanInsideBuffer : Obligations.AcceptedSpanInsideBuffer := by
  intro addrw W r ⟨hcapacity, hwindow⟩ a ha
  have hspan := span_le_of_capacity hcapacity
  obtain ⟨hlow, hhigh⟩ := mem_spanAddrs.mp ha
  omega

/-! ## Extract by bytes (R105) -/

/-- A numeric bit of a byte is the buffer bit at its position from the left (R9). -/
theorem read_getLsbD (m : Memory) (base q : Nat) {k : Nat} (hk : k < 8) :
    (Memory.read m (base + q)).getLsbD k = bufBit m base (8 * q + (7 - k)) := by
  unfold bufBit
  congr 1
  · congr 2
    omega
  · omega

/-- A byte is the 8-bit field at its own position. -/
theorem read_toNat (m : Memory) (base q : Nat) : (Memory.read m (base + q)).toNat = extract m base (8 * q) 8 := by
  apply Nat.eq_of_testBit_eq
  intro k
  by_cases hk : k < 8
  · rw [BitVec.testBit_toNat, read_getLsbD m base q hk, extract_testBit _ _ _ _ hk]
  · rw [extract_testBit_ge _ _ _ _ (by omega), BitVec.testBit_toNat, BitVec.getLsbD_of_ge _ _ (by omega)]

/-- The first `n` bytes of the buffer from byte `q` on, with one more byte (R54). -/
theorem extract_append_byte (m : Memory) (base q n : Nat) :
    extract m base (8 * q) (8 * (n + 1)) =
      extract m base (8 * q) (8 * n) <<< 8 ||| (Memory.read m (base + q + n)).toNat := by
  have hlt : extract m base (8 * (q + n)) 8 < 2 ^ 8 := extract_lt _ _ _ _
  rw [Nat.add_assoc, read_toNat, ← Nat.shiftLeft_add_eq_or_of_lt hlt, Nat.shiftLeft_eq, Nat.mul_add, extract_add,
    ← Nat.mul_add, Nat.mul_one]

/-- The loop of ExtractBytes holds the bytes taken, as one number, shifted left by `bit_off` and cut to `N` bits: bits move up
only, so a bit cut off in an earlier pass would be cut off in the last. -/
theorem extractBytesLoop_eq (m : Memory) (base o N n : Nat) :
    extractBytesLoop m base o N n = (extract m base (8 * (o / 8)) (8 * n) <<< (o % 8)) % 2 ^ N := by
  induction n with
  | zero => simp [extractBytesLoop, extract]
  | succ n ih =>
    rw [extractBytesLoop, ih, extract_append_byte]
    apply Nat.eq_of_testBit_eq
    intro k
    simp only [Nat.testBit_mod_two_pow, Nat.testBit_or, Nat.testBit_shiftLeft]
    grind

/-- The field is the span, read as one number, shifted right by `sh` and cut to `W` bits (R105). -/
theorem extract_eq_span_shift (m : Memory) (base o W : Nat) :
    extract m base o W = (extract m base (8 * (o / 8)) (8 * spanBytes o W) >>> frameShift o W) % 2 ^ W := by
  apply Nat.eq_of_testBit_eq
  intro k
  rw [Nat.testBit_mod_two_pow, Nat.testBit_shiftRight]
  by_cases hk : k < W
  · have hframe := frameShift_add o W
    rw [extract_testBit _ _ _ _ hk, extract_testBit _ _ _ _ (by omega), decide_eq_true hk, Bool.true_and]
    congr 1
    omega
  · rw [extract_testBit_ge _ _ _ _ (by omega), decide_eq_false hk, Bool.false_and]

/-- ExtractBytes is Extract: at a byte-aligned offset the loop has taken the whole field; at any other, the high bits of one
more byte are the field's low `bit_off` bits. -/
theorem extractBytes_eq (m : Memory) (base o : Nat) {n : Nat} (hn : 0 < n) :
    extractBytes m base o (8 * n) = extract m base o (8 * n) := by
  have hbytes : 8 * n / 8 = n := by omega
  rw [extractBytes, extractBytesLoop_eq, hbytes]
  split
  · next haligned =>
    have ho : 8 * (o / 8) = o := by omega
    rw [haligned, ho, Nat.shiftLeft_zero, Nat.mod_eq_of_lt (extract_lt _ _ _ _)]
  · next hunaligned =>
    apply Nat.eq_of_testBit_eq
    intro k
    rw [Nat.testBit_or, Nat.testBit_mod_two_pow, Nat.testBit_shiftLeft, Nat.testBit_shiftRight, Nat.add_assoc,
      BitVec.testBit_toNat]
    by_cases hlow : k < o % 8
    · rw [read_getLsbD _ _ _ (by omega), decide_eq_false (by omega : ¬ k ≥ o % 8), Bool.false_and, Bool.and_false,
        Bool.false_or, extract_testBit _ _ _ _ (by omega)]
      congr 1
      omega
    · rw [BitVec.getLsbD_of_ge _ _ (by omega : 8 ≤ 8 - o % 8 + k), Bool.or_false, decide_eq_true (Nat.le_of_not_lt hlow),
        Bool.true_and]
      by_cases hk : k < 8 * n
      · rw [decide_eq_true hk, Bool.true_and, extract_testBit _ _ _ _ (by omega), extract_testBit _ _ _ _ hk]
        congr 1
        omega
      · rw [decide_eq_false hk, Bool.false_and, extract_testBit_ge _ _ _ _ (Nat.le_of_not_lt hk)]

/-- Settles O24: the byte loop is Extract (`extractBytes_eq`), and so is the shifted span (`extract_eq_span_shift`). -/
theorem extractBytesIsExtract : Obligations.ExtractBytesIsExtract :=
  fun m base o => ⟨fun _ hn => extractBytes_eq m base o hn, fun W _ => extract_eq_span_shift m base o W⟩

/-! ## Insert by bytes (R106) -/

/-- Numeric bit `k` of the byte at shift `s` of a value moved up by `d`. -/
theorem shifted_byte_getLsbD (x d s : Nat) {k : Nat} (hk : k < 8) :
    (BitVec.ofNat 8 ((x <<< d) >>> s)).getLsbD k = (decide (d ≤ s + k) && x.testBit (s + k - d)) := by
  rw [BitVec.getLsbD_ofNat, decide_eq_true hk, Bool.true_and, Nat.testBit_shiftRight, Nat.testBit_shiftLeft]

/-- The byte that InsertBytes writes at byte `n` of the span is the one Insert merges: the mask selects the positions of the
field, and the value has its bit of each of them there. -/
theorem maskedByte_eq_mergeByte (old : Byte) {o W v n : Nat} (hv : v < 2 ^ W) (hn : n < spanBytes o W) :
    (old &&& ~~~BitVec.ofNat 8 (((2 ^ W - 1) <<< frameShift o W) >>> (8 * (spanBytes o W - 1 - n)))) |||
      BitVec.ofNat 8 ((v <<< frameShift o W) >>> (8 * (spanBytes o W - 1 - n))) = mergeByte old (o / 8 + n) o W v := by
  have hframe := frameShift_add o W
  refine byte_ext fun t ht => ?_
  have hk : 7 - t < 8 := by omega
  rw [mergeByte_getLsbD _ _ _ _ _ ht, BitVec.getLsbD_or, BitVec.getLsbD_and, BitVec.getLsbD_not, decide_eq_true hk,
    Bool.true_and, shifted_byte_getLsbD _ _ _ hk, shifted_byte_getLsbD _ _ _ hk, Nat.testBit_two_pow_sub_one]
  generalize frameShift o W = d at *
  generalize hs : 8 * (spanBytes o W - 1 - n) + (7 - t) = s
  have hpos : s + 8 * (o / 8 + n) + t + 1 = d + o + W := by omega
  by_cases hin : o ≤ 8 * (o / 8 + n) + t ∧ 8 * (o / 8 + n) + t < o + W
  · have hle : d ≤ s := by omega
    have hlt : s - d < W := by omega
    have hbit : W - 1 - (8 * (o / 8 + n) + t - o) = s - d := by omega
    rw [if_pos hin, hbit]
    simp [hle, hlt]
  · rw [if_neg hin]
    by_cases hle : d ≤ s
    · have hge : W ≤ s - d := by omega
      have hvalue : v.testBit (s - d) = false :=
        Nat.testBit_lt_two_pow (lt_of_lt_of_le hv (Nat.pow_le_pow_right (by omega) hge))
      simp [hvalue, hge]
    · simp [hle]

/-- Each pass of the two loops writes the same byte at the same address (R106). -/
theorem insertBytesLoop_eq (m : Memory) (base : Nat) {o W v n : Nat} (hv : v < 2 ^ W) (hn : n ≤ spanBytes o W) :
    insertBytesLoop m base o W v n = insertLoop m base o W v n := by
  induction n with
  | zero => rfl
  | succ n ih => rw [insertBytesLoop, insertLoop, ih (by omega), maskedByte_eq_mergeByte _ hv hn]

/-- Settles O25: both loops run over the bytes of the span. -/
theorem insertBytesIsInsert : Obligations.InsertBytesIsInsert :=
  fun m base _ _ _ hv => insertBytesLoop_eq m base hv le_rfl

/-! ## Byte-aligned fields (R107) -/

theorem spanBytes_aligned (q n : Nat) : spanBytes (8 * q) (8 * n) = n := by
  unfold spanBytes
  omega

/-- Byte `j` of the field, at a byte-aligned offset, is made of value bits only, the first byte most significant. -/
theorem mergeByte_aligned (old : Byte) (q : Nat) {n j : Nat} (v : Nat) (hj : j < n) :
    mergeByte old (q + j) (8 * q) (8 * n) v = BitVec.ofNat 8 (v / 2 ^ (8 * (n - 1 - j))) := by
  refine byte_ext fun t ht => ?_
  rw [mergeByte_getLsbD _ _ _ _ _ ht, if_pos (by omega), BitVec.getLsbD_ofNat, decide_eq_true (by omega), Bool.true_and,
    Nat.testBit_div_two_pow]
  congr 1
  omega

/-- Digit `j` of a byte-aligned field, read as a big-endian number in base 256, is its byte `j`. -/
theorem extract_aligned_digit (m : Memory) (base q : Nat) {n j : Nat} (hj : j < n) :
    extract m base (8 * q) (8 * n) / 2 ^ (8 * (n - 1 - j)) % 256 = (Memory.read m (base + q + j)).toNat := by
  rw [Nat.add_assoc, read_toNat]
  apply Nat.eq_of_testBit_eq
  intro k
  rw [show 256 = 2 ^ 8 from rfl, Nat.testBit_mod_two_pow, Nat.testBit_div_two_pow]
  by_cases hk : k < 8
  · rw [decide_eq_true hk, Bool.true_and, extract_testBit _ _ _ _ (by omega), extract_testBit _ _ _ _ hk]
    congr 1
    omega
  · rw [decide_eq_false hk, Bool.false_and, extract_testBit_ge _ _ _ _ (by omega)]

/-- Settles O26: the bytes of the span, which is the field, by `mergeByte_aligned`; the digits by `extract_aligned_digit`. -/
theorem alignedFieldIsBigEndian : Obligations.AlignedFieldIsBigEndian := by
  intro m base q n v hwf _
  have hfirst : 8 * q / 8 = q := by omega
  refine ⟨fun j hj => ?_, fun a ha => ?_, extract_lt _ _ _ _, fun j => extract_aligned_digit m base q⟩
  · have hbyte : base + q + j - base = q + j := by omega
    rw [insertField_read hwf, spanBytes_aligned, hfirst, if_pos (by omega), hbyte, mergeByte_aligned _ _ _ hj]
  · rw [insertField_read hwf, spanBytes_aligned, hfirst, if_neg (by omega)]

/-! ## What an Insert leaves of another field (R108, R110) -/

/-- Settles O27: bits by `bufBit_insertField`, bytes by `insertField_read_outside`, fields by
`extract_insertField_disjoint`. -/
theorem insertDisturbsNothingElse : Obligations.InsertDisturbsNothingElse := by
  intro m base o W v hwf
  refine ⟨fun p hp => ?_, fun a => insertField_read_outside hwf, fun o' W' => extract_insertField_disjoint hwf⟩
  rw [bufBit_insertField hwf, if_neg (by omega)]

section
variable {m : Memory} (h : Memory.wf m = true) (base o W v o' W' v' : Nat)
include h

/-- An Insert leaves nothing of an earlier one to the same field: the memories agree below the buffer, and at every buffer
position (R110). -/
theorem insertField_overwrite :
    insertField (insertField m base o W v') base o W v = insertField m base o W v := by
  have hfirst : Memory.wf (insertField m base o W v') = true := insertField_wf h base o W v'
  refine memory_ext_bits (insertField_wf hfirst ..) (insertField_wf h ..) base (fun a ha => ?_) fun p => ?_
  · rw [insertField_read_low hfirst ha, insertField_read_low h ha, insertField_read_low h ha]
  · rw [bufBit_insertField hfirst, bufBit_insertField h, bufBit_insertField h]
    split <;> rfl

/-- Inserts to disjoint position ranges commute: no position takes its bit from both (R110). -/
theorem insertField_comm (hd : o + W ≤ o' ∨ o' + W' ≤ o) :
    insertField (insertField m base o W v) base o' W' v' = insertField (insertField m base o' W' v') base o W v := by
  have hleft : Memory.wf (insertField m base o W v) = true := insertField_wf h base o W v
  have hright : Memory.wf (insertField m base o' W' v') = true := insertField_wf h base o' W' v'
  refine memory_ext_bits (insertField_wf hleft ..) (insertField_wf hright ..) base (fun a ha => ?_) fun p => ?_
  · rw [insertField_read_low hleft ha, insertField_read_low h ha, insertField_read_low hright ha,
      insertField_read_low h ha]
  · rw [bufBit_insertField hleft, bufBit_insertField h, bufBit_insertField hright, bufBit_insertField h]
    by_cases hp : o ≤ p ∧ p < o + W
    · have hp' : ¬ (o' ≤ p ∧ p < o' + W') := by omega
      simp only [if_pos hp, if_neg hp']
    · simp only [if_neg hp]

end

/-- Settles O28: `insertField_overwrite` and `insertField_comm`. -/
theorem insertsOverwriteAndCommute : Obligations.InsertsOverwriteAndCommute :=
  fun _ base o W v o' W' v' h => ⟨insertField_overwrite h base o W v v', insertField_comm h base o W v o' W' v'⟩

end Sys2Proof.Machine
end

section
/-! Issue and completion (R111 to R113): a command that fits is accepted (O6), a busy unit's turn performs its command and
never stops (O3, O22, O52) but in the states no run reaches (O23), and a PACK followed by an UNPACK returns the value (O32). -/

namespace Sys2Proof.Machine

open Sys2Proof

/-! ## Issue -/

/-- Settles O6: the unit in hand by `acceptCommand_unit`, the others by `acceptCommand_other`; what their records hold by
`mem_raced_noteWrites`. -/
theorem fittingCommandIsAccepted : Obligations.FittingCommandIsAccepted := by
  intro i s r hidle hfits
  refine ⟨_, _, exec_accept hidle hfits, by simp, acceptCommand_unit (cur_lt_of_unit? hidle.1) _,
    fun a => ?_, fun k v hk hv => ⟨(v.noteWrites (r.store (encode i)).accept.writeSpan).raced, ?_, fun a => ?_⟩⟩
  · have hraced := mem_raced_noteWrites (r := (r.store (encode i)).accept) (ws := otherWrites s.cur s.units) (a := a)
    rw [span_accept, mem_otherWrites] at hraced
    simpa using hraced
  · exact (acceptCommand_other s (r.store (encode i)) hk).trans (congrArg (Option.map _) hv)
  · rw [mem_raced_noteWrites, mem_writeSpan_accept]
    tauto

/-! ## Completion -/

/-- Settles O3: the scheduled turn is a busy unit's (`completeTurn_busy`). -/
theorem completionStepRunsDecodedCommand : Obligations.CompletionStepRunsDecodedCommand := by
  intro s u r i rest hs hu hb hd
  rw [step_scheduled hs]
  exact completeTurn_busy (s := { s with schedule := rest }) hu hb hd

/-- A busy unit whose span is not inside `Mem` stops (log 13). -/
theorem exec_outsideMem {i : Instr} {s : State} {r : PkuUnit} (hu : s.unit? = some r) (hb : r.status.busy = true)
    (hm : ¬ spanInMem s.addrw r.base.toNat r.off.toNat (typeWidth r.ptrw i.typeCode) = true) :
    exec i s = .fault .addressOutsideMem := by
  cases hi : i.op with
  | unpack => rw [exec_busy_unpack hi hu hb, completeUnpack, if_neg hm]
  | pack => rw [exec_busy_pack hi hu hb, completePack, if_neg hm]

/-- Settles O23, by `exec_no_unit` and `exec_outsideMem`. -/
theorem unreachableCommandsStop : Obligations.UnreachableCommandsStop := by
  intro i s
  refine ⟨exec_no_unit i, fun r hu hb hspan => exec_outsideMem hu hb fun hm => ?_⟩
  exact absurd (spanInMem_iff.mp hm) (Nat.not_le_of_gt hspan)

/-- The completion step of a busy unit whose span is inside `Mem` ends the command, whatever races were met (R112). -/
theorem exec_busy_answers (i : Instr) {s : State} {r : PkuUnit} (hu : s.unit? = some r) (hb : r.status.busy = true)
    (hm : spanInMem s.addrw r.base.toNat r.off.toNat (typeWidth r.ptrw i.typeCode) = true) :
    ∃ d m n, exec i s = .next { s.setUnit ({ r with data := d } : PkuUnit).finish with mem := m, draws := n } := by
  cases hi : i.op with
  | unpack =>
    rw [exec_busy_unpack hi hu hb]
    obtain ⟨d, n, hanswer⟩ := completeUnpack_answers (typeExtend i.typeCode) hm
    exact ⟨d, s.mem, n, hanswer⟩
  | pack =>
    rw [exec_busy_pack hi hu hb, completePack, if_pos hm]
    exact ⟨r.data, _, _, rfl⟩

/-- A busy unit that keeps its invariant completes on its turn: its command was accepted, so it decodes and its span is
inside `Mem` (R112, R113). -/
theorem completeTurn_answers {s : State} {u : Nat} {r : PkuUnit} (hu : s.units[u]? = some r)
    (hinv : UnitInv s.addrw r) (hb : r.status.busy = true) :
    ∃ d m n, completeTurn u s = .next { s with
      cur := u, units := s.units.set u ({ r with data := d } : PkuUnit).finish, mem := m, draws := n } := by
  obtain ⟨i, hcmd, hfits⟩ := hinv.accepted hb
  rw [completeTurn_busy hu hb (decode?_eq_some.mp hcmd)]
  exact exec_busy_answers i (s := { s with cur := u }) hu hb (spanInMem_of_fits (s := s) hfits)

/-- Settles O22, from `completeTurn_answers`. -/
theorem completionCannotFault : Obligations.CompletionCannotFault := by
  intro s u r rest hinv hs hu hb
  have hunit : UnitInv s.addrw r := hinv.units r (List.mem_of_getElem? hu)
  obtain ⟨d, m, n, hanswer⟩ := completeTurn_answers (s := { s with schedule := rest }) hu hunit hb
  refine ⟨_, _, (step_scheduled hs).trans hanswer, List.getElem?_set_self (List.getElem?_eq_some_iff.mp hu).1, rfl, rfl,
    fun k hk => List.getElem?_set_ne hk.symm⟩

/-! ## Completion with nothing scheduled -/

/-- A busy unit put back idle leaves one busy unit less. -/
theorem numBusy_set_idle {us : List PkuUnit} {u : Nat} {r r' : PkuUnit} (hu : us[u]? = some r)
    (hb : r.status.busy = true) (hb' : r'.status.busy = false) : numBusy (us.set u r') + 1 = numBusy us := by
  obtain ⟨hlt, rfl⟩ := List.getElem?_eq_some_iff.mp hu
  have hpos : 0 < numBusy us := List.countP_pos_iff.mpr ⟨_, List.getElem_mem hlt, hb⟩
  unfold numBusy at *
  rw [List.countP_set hlt, if_pos hb, if_neg (by simp [hb'])]
  omega

/-- With a unit busy and nothing scheduled, the step is a completion: one busy unit less, and nothing is scheduled (R261,
log 5). -/
theorem step_unscheduled_busy {s : State} (hinv : Inv s) (hs : s.schedule = []) (hbusy : 0 < numBusy s.units) :
    ∃ t, step s = .next t ∧ t.schedule = [] ∧ numBusy t.units + 1 = numBusy s.units := by
  obtain ⟨r₀, hr₀, hb₀⟩ := List.countP_pos_iff.mp hbusy
  obtain ⟨u, hfirst⟩ : ∃ u, firstBusy s.units = some u := by
    rw [← Option.isSome_iff_exists, firstBusy, List.findIdx?_isSome]
    exact List.any_eq_true.mpr ⟨r₀, hr₀, hb₀⟩
  obtain ⟨hlt, hb, -⟩ := List.findIdx?_eq_some_iff_getElem.mp hfirst
  have hu : s.units[u]? = some s.units[u] := List.getElem?_eq_getElem hlt
  obtain ⟨d, m, n, hanswer⟩ := completeTurn_answers hu (hinv.units _ (List.getElem_mem hlt)) hb
  rw [step_idle_schedule hs, defaultTurn, hfirst]
  exact ⟨_, hanswer, hs, numBusy_set_idle hu hb rfl⟩

/-- Settles O52, by induction on the number of busy units; `stepKeepsInv` carries the invariant. -/
theorem busyUnitsComplete : Obligations.BusyUnitsComplete := by
  intro s hinv hs
  generalize hn : numBusy s.units = n
  induction n generalizing s with
  | zero => exact ⟨s, rfl, hn, hs⟩
  | succ n ih =>
    obtain ⟨t, hstep, ht, hless⟩ := step_unscheduled_busy hinv hs (by omega)
    rw [run_succ hstep]
    exact ih t (stepKeepsInv s t hinv hstep) ht (by omega)

/-! ## PACK, then UNPACK -/

/-- No unit is busy, and unit `u`, which is `r`, takes CMD writes (R35). -/
structure Ready (s : State) (u : Nat) (r : PkuUnit) : Prop where
  blocks : BlocksApart s.units
  unit : s.units[u]? = some r
  idle : ∀ v ∈ s.units, v.status.busy = false
  notHalted : r.status.halted = false

/-- `r` after it has accepted and performed the command `i` on memory `m`, no race met (R111, R112). -/
def commandedUnit (i : Instr) (m : Memory) (r : PkuUnit) : PkuUnit :=
  performedUnit i m (r.store (encode i)).accept

/-- The state after unit `u`, which was `r`, has accepted and performed the command `i`, with `rest` left to be done. -/
def commandedState (i : Instr) (u : Nat) (r : PkuUnit) (rest : List Turn) (s : State) : State :=
  { s with
    schedule := rest, cur := u, mem := performedMem i s.mem r, units := s.units.set u (commandedUnit i s.mem r) }

section
variable {i : Instr} {s : State} {u : Nat} {r : PkuUnit} {rest : List Turn}

theorem Ready.commanded (h : Ready s u r) : Ready (commandedState i u r rest s) u (commandedUnit i s.mem r) where
  blocks := blocksApart_set h.unit rfl h.blocks
  unit := List.getElem?_set_self (List.getElem?_eq_some_iff.mp h.unit).1
  idle v hv := by
    rcases List.mem_or_eq_of_mem_set hv with hv | rfl
    · exact h.idle v hv
    · rfl
  notHalted := h.notHalted

/-- A CMD write of a command that fits is accepted with no race, and nothing else changes (R111). -/
theorem Ready.step_issue (h : Ready s u r) (hfits : Fits s.addrw (typeWidth r.ptrw i.typeCode) r)
    (hs : s.schedule = .access (.regWrite (r.regbase + 0x04) .word (encode i)) :: rest) :
    step s = .next { s with
      schedule := rest, cur := u, units := s.units.set u (r.store (encode i)).accept } := by
  have hb : r.status.busy = false := h.idle r (List.mem_of_getElem? h.unit)
  have haccept := exec_accept (i := i) (s := { s with schedule := rest, cur := u }) ⟨h.unit, hb⟩ hfits
  rw [acceptCommand_alone (s := { s with schedule := rest, cur := u }) h.idle] at haccept
  exact (cmdWriteRunsDecodedCommand s u r i _ rest h.blocks h.unit hb h.notHalted (decode_encode i) hs).trans haccept

/-- The CMD write and the unit's completion turn after it: the command is performed. -/
theorem Ready.run_command (h : Ready s u r) (n : Nat) (hfits : Fits s.addrw (typeWidth r.ptrw i.typeCode) r)
    (hs : s.schedule = .access (.regWrite (r.regbase + 0x04) .word (encode i)) :: .complete u :: rest) :
    Host.Core.run Sys2Proof.core (n + 2) s = Host.Core.run Sys2Proof.core n (commandedState i u r rest s) := by
  have hlt : u < s.units.length := (List.getElem?_eq_some_iff.mp h.unit).1
  have hcomplete := step_complete (s := { s with
      schedule := .complete u :: rest, cur := u, units := s.units.set u (r.store (encode i)).accept })
    ⟨List.getElem?_set_self hlt, inFlight_accept r i, hfits, rfl⟩ rfl
  rw [run_succ (h.step_issue hfits hs), run_succ hcomplete, List.set_set]
  rfl

end

@[simp] theorem ofParts_op (op : Op) (tc : TypeCode) : (Instr.ofParts op tc).op = op := by
  cases op <;> cases tc <;> rfl

@[simp] theorem ofParts_typeCode (op : Op) (tc : TypeCode) : (Instr.ofParts op tc).typeCode = tc := by
  cases op <;> cases tc <;> rfl

/-- DATA after a PACK and then an UNPACK of the same type is the value packed, extended (R109). -/
theorem data_unpack_of_pack {m : Memory} (hwf : Memory.wf m = true) (tc : TypeCode) (r : PkuUnit) :
    (commandedUnit (.ofParts .unpack tc) (performedMem (.ofParts .pack tc) m r)
      (commandedUnit (.ofParts .pack tc) m r)).data =
        typeExtend tc (typeWidth r.ptrw tc) (packValue r.data (typeWidth r.ptrw tc)) := by
  simp only [commandedUnit, performedUnit, performedMem, ofParts_op, ofParts_typeCode, unit_accept_ptrw, unit_accept_base,
    unit_accept_off, unit_store_ptrw, unit_store_base, unit_store_off]
  rw [extract_insertField_same hwf, Nat.mod_eq_of_lt (packValue_lt _ _)]

/-- The bits of DATA's low `W` bits, extended: their own, then zero, or the sign for a signed type (R31, R112). -/
theorem typeExtend_packValue_getLsbD (tc : TypeCode) (p : PtrWidth) (d : Data) {k : Nat} (hk : k < 128) :
    (typeExtend tc (typeWidth p tc) (packValue d (typeWidth p tc))).getLsbD k =
      if k < typeWidth p tc then d.getLsbD k else tc.isSigned && d.getLsbD (typeWidth p tc - 1) := by
  rw [typeExtend_getLsbD (typeWidth_le p tc) (packValue_lt _ _) hk,
    packValue_testBit _ (Nat.sub_one_lt_of_lt (typeWidth_pos p tc))]
  exact ite_congr rfl (packValue_testBit d) fun _ => rfl

/-- Settles O32: the two commands run one after the other (`Ready.run_command`), and the UNPACK extends the value that the
PACK inserted (`data_unpack_of_pack`). -/
theorem unpackOfPackReturnsValue : Obligations.UnpackOfPackReturnsValue := by
  refine ⟨fun m base o W v hwf hv => ?_, fun tc s u r rest hblocks hwf hu hidle hh hfits hs => ?_⟩
  · rw [extract_insertField_same hwf, Nat.mod_eq_of_lt hv]
  · have hready : Ready s u r := ⟨hblocks, hu, hidle, hh⟩
    have hpacked := hready.commanded (i := .ofParts .pack tc)
      (rest := .access (.regWrite (r.regbase + 0x04) .word (encode (Instr.ofParts .unpack tc))) :: .complete u :: rest)
    have hpack := hready.run_command 2 (by rwa [ofParts_typeCode]) hs
    have hunpack := hpacked.run_command 0 (by rwa [ofParts_typeCode]) rfl
    have hdata := data_unpack_of_pack hwf tc r
    exact ⟨_, _, hpack.trans hunpack, hpacked.commanded.unit, rfl, fun k hk =>
      (congrArg (BitVec.getLsbD · k) hdata).trans (typeExtend_packValue_getLsbD tc r.ptrw r.data hk)⟩

end Sys2Proof.Machine
end

section
/-! The boolean commands (R120, R121): the completion steps of UNPACK.BOOL (O13) and PACK.BOOL (O14), by the masks of the one
byte that they touch. -/

namespace Sys2Proof.Machine

open Sys2Proof

/-! ## Reading one bit -/

/-- A mask of one bit tests that bit of a byte. -/
theorem and_oneBitMask_ne_zero_iff (x : Byte) {k : Nat} (hk : k < 8) :
    x &&& (1#8 <<< k) ≠ 0#8 ↔ x.getLsbD k = true := by
  have hmask : BitVec.twoPow 8 k ≠ 0#8 := by
    intro hzero
    have hbit := congrArg (BitVec.getLsbD · k) hzero
    simp [hk] at hbit
  rw [← BitVec.twoPow_eq, BitVec.and_twoPow, ite_ne_right_iff, and_iff_left hmask]

/-- The field of width 1 is the buffer bit at its offset (R103). -/
theorem extract_one (m : Memory) (base o : Nat) : extract m base o 1 = (bufBit m base o).toNat := by
  simp [extract]

/-- The zero-extension of one bit (R8). -/
theorem zext128_bit (b : Bool) : zext128 1 b.toNat = if b then 1#128 else 0#128 := by
  cases b <;> rfl

/-- Settles O13: the field of width 1 is the buffer bit (`extract_one`), which is what the mask tests
(`and_oneBitMask_ne_zero_iff`). -/
theorem unpackBoolResult : Obligations.UnpackBoolResult := by
  intro s r h
  have hdata : zext128 1 (extract s.mem r.base.toNat r.off.toNat 1) =
      if Memory.read s.mem (r.base.toNat + r.off.toNat / 8) &&& (1#8 <<< (7 - r.off.toNat % 8)) ≠ 0#8
        then 1#128 else 0#128 := by
    rw [extract_one, zext128_bit]
    exact if_congr (and_oneBitMask_ne_zero_iff _ (by omega)).symm rfl rfl
  rw [exec_unpack_done (i := .unpackBool) rfl h, ← hdata]
  rfl

/-! ## Writing one bit -/

/-- In the span frame a field of width 1 is moved up past the later positions of its byte (R106). -/
theorem frameShift_one (o : Nat) : frameShift o 1 = 7 - o % 8 := by
  unfold frameShift spanBytes
  omega

/-- PACK's value operand as a slice of DATA (R31). -/
theorem packValue_eq_extractLsb' (d : Data) (W : Nat) : packValue d W = (d.extractLsb' 0 W).toNat := by
  rw [packValue, BitVec.extractLsb'_toNat, Nat.shiftRight_zero]

/-- Shifting left and cutting to `w` bits commute. -/
theorem ofNat_shiftLeft (w v d : Nat) : BitVec.ofNat w (v <<< d) = BitVec.ofNat w v <<< d := by
  apply BitVec.eq_of_toNat_eq
  simp [Nat.shiftLeft_eq]

/-- Insert of one bit writes one byte, with the bit cleared and the new one ORed in: InsertBytes (R106) at width 1. -/
theorem insertField_one (m : Memory) (base o : Nat) (b : BitVec 1) :
    insertField m base o 1 b.toNat = Memory.write m (base + o / 8)
      ((Memory.read m (base + o / 8) &&& ~~~(1#8 <<< (7 - o % 8))) ||| (b.setWidth 8 <<< (7 - o % 8))) := by
  obtain ⟨-, hspan, -⟩ := spanByteCounts
  rw [← insertBytesIsInsert m base o 1 b.toNat b.isLt, insertBytes, hspan, insertBytesLoop, insertBytesLoop]
  simp only [hspan, frameShift_one, ofNat_shiftLeft, BitVec.ofNat_toNat, pow_one, Nat.add_one_sub_one, Nat.add_zero,
    Nat.sub_self, Nat.mul_zero, Nat.shiftRight_zero]

/-- Settles O14: the completion step inserts one bit (`insertField_one`), which is DATA's lowest
(`packValue_eq_extractLsb'`). -/
theorem packBoolResult : Obligations.PackBoolResult := by
  intro s r h
  dsimp only
  rw [exec_pack_done (i := .packBool) rfl h, ← insertField_one, ← packValue_eq_extractLsb']
  rfl

end Sys2Proof.Machine
end

section
/-! The unsigned commands (R130 to R143): the completion steps of the six unsigned UNPACKs (O15) and PACKs (O17), as instances
of what the completion step of any command does, bit by bit. -/

namespace Sys2Proof.Machine

open Sys2Proof

/-! ## Any command, bit by bit (R112) -/

section
variable {i : Instr} {s : State} {r : PkuUnit}

/-- An UNPACK that met no race: DATA takes the field's bits by position, then zero, or the field's first bit for a signed
type (R8, R103, R112). -/
theorem exec_unpack_bits (hi : i.op = .unpack) (h : Performing s r (typeWidth r.ptrw i.typeCode)) :
    ∃ d : Data,
      exec i s = .next (s.setUnit { r with data := d, status := finishedStatus r.status }) ∧
      ∀ k, k < 128 → d.getLsbD k =
        if k < typeWidth r.ptrw i.typeCode
        then bufBit s.mem r.base.toNat (r.off.toNat + (typeWidth r.ptrw i.typeCode - 1 - k))
        else i.typeCode.isSigned && bufBit s.mem r.base.toNat r.off.toNat := by
  refine ⟨_, exec_unpack_done hi h, fun k hk => ?_⟩
  rw [typeExtend_getLsbD (typeWidth_le _ _) (extract_lt _ _ _ _) hk,
    extract_testBit _ _ _ _ (Nat.sub_one_lt_of_lt (typeWidth_pos _ _)), Nat.sub_self, Nat.add_zero]
  exact ite_congr rfl (extract_testBit _ _ _ _) fun _ => rfl

/-- A PACK that met no race: the field's positions take DATA's low bits, every other buffer bit and every byte outside the
span are kept (R31, R104, R112). -/
theorem exec_pack_bits (hi : i.op = .pack) (hwf : Memory.wf s.mem = true)
    (h : Performing s r (typeWidth r.ptrw i.typeCode)) :
    ∃ m : Memory,
      exec i s = .next { s.setUnit { r with status := finishedStatus r.status } with mem := m } ∧
      (∀ a, a ∉ spanAddrs r.base.toNat r.off.toNat (typeWidth r.ptrw i.typeCode) →
        Memory.read m a = Memory.read s.mem a) ∧
      ∀ p, bufBit m r.base.toNat p =
        if r.off.toNat ≤ p ∧ p < r.off.toNat + typeWidth r.ptrw i.typeCode
        then r.data.getLsbD (typeWidth r.ptrw i.typeCode - 1 - (p - r.off.toNat))
        else bufBit s.mem r.base.toNat p := by
  refine ⟨_, exec_pack_done hi h, fun a ha => insertField_read_outside hwf ha, fun p => ?_⟩
  rw [bufBit_insertField hwf]
  exact ite_congr rfl (fun hp => packValue_testBit _ (by omega)) fun _ => rfl

end

/-! ## The unsigned commands -/

/-- Every form of the list is an unsigned UNPACK with the width of its type code (R100). -/
theorem unpackUnsignedForms_spec {f : Instr × (PtrWidth → Nat)} (hf : f ∈ unpackUnsignedForms) :
    f.1.op = .unpack ∧ f.1.typeCode.isSigned = false ∧ ∀ p, f.2 p = typeWidth p f.1.typeCode := by
  simp only [unpackUnsignedForms, List.mem_cons, List.not_mem_nil, or_false] at hf
  rcases hf with rfl | rfl | rfl | rfl | rfl | rfl <;> exact ⟨rfl, rfl, fun _ => rfl⟩

/-- Every form of the list is a PACK with the width of its type code (R100). -/
theorem packUnsignedForms_spec {f : Instr × (PtrWidth → Nat)} (hf : f ∈ packUnsignedForms) :
    f.1.op = .pack ∧ ∀ p, f.2 p = typeWidth p f.1.typeCode := by
  simp only [packUnsignedForms, List.mem_cons, List.not_mem_nil, or_false] at hf
  rcases hf with rfl | rfl | rfl | rfl | rfl | rfl <;> exact ⟨rfl, fun _ => rfl⟩

/-- Settles O15: each form is an UNPACK of its type code's width (`exec_unpack_bits`), whose bits above the field are zero
because the type is unsigned. -/
theorem unpackUnsignedResult : Obligations.UnpackUnsignedResult := by
  intro f hf s r h
  obtain ⟨hop, hsigned, hwidth⟩ := unpackUnsignedForms_spec hf
  rw [hwidth] at h ⊢
  have hbits := exec_unpack_bits hop h
  rwa [hsigned, Bool.false_and] at hbits

/-- Settles O17: each form is a PACK of its type code's width (`exec_pack_bits`). -/
theorem packUnsignedResult : Obligations.PackUnsignedResult := by
  intro f hf s r hwf h
  obtain ⟨hop, hwidth⟩ := packUnsignedForms_spec hf
  rw [hwidth] at h ⊢
  exact exec_pack_bits hop hwf h

end Sys2Proof.Machine
end

section
/-! The signed commands (R150 to R163): the completion steps of the six signed UNPACKs (O16) and PACKs (O18), and the signed
PACK beside the unsigned PACK of its width (O19). -/

namespace Sys2Proof.Machine

open Sys2Proof

/-! ## Each signed command's result -/

/-- Every form of the list is a signed UNPACK with the width of its type code (R100). -/
theorem unpackSignedForms_spec {f : Instr × (PtrWidth → Nat)} (hf : f ∈ unpackSignedForms) :
    f.1.op = .unpack ∧ f.1.typeCode.isSigned = true ∧ ∀ p, f.2 p = typeWidth p f.1.typeCode := by
  simp only [unpackSignedForms, List.mem_cons, List.not_mem_nil, or_false] at hf
  rcases hf with rfl | rfl | rfl | rfl | rfl | rfl <;> exact ⟨rfl, rfl, fun _ => rfl⟩

/-- Every form of the list is a PACK with the width of its type code (R100). -/
theorem packSignedForms_spec {f : Instr × (PtrWidth → Nat)} (hf : f ∈ packSignedForms) :
    f.1.op = .pack ∧ ∀ p, f.2 p = typeWidth p f.1.typeCode := by
  simp only [packSignedForms, List.mem_cons, List.not_mem_nil, or_false] at hf
  rcases hf with rfl | rfl | rfl | rfl | rfl | rfl <;> exact ⟨rfl, fun _ => rfl⟩

/-- Settles O16: each form is an UNPACK of its type code's width (`exec_unpack_bits`), whose bits above the field are the
field's first bit because the type is signed. -/
theorem unpackSignedResult : Obligations.UnpackSignedResult := by
  intro f hf s r h
  obtain ⟨hop, hsigned, hwidth⟩ := unpackSignedForms_spec hf
  rw [hwidth] at h ⊢
  have hbits := exec_unpack_bits hop h
  rwa [hsigned, Bool.true_and] at hbits

/-- Settles O18: each form is a PACK of its type code's width (`exec_pack_bits`). -/
theorem packSignedResult : Obligations.PackSignedResult := by
  intro f hf s r hwf h
  obtain ⟨hop, hwidth⟩ := packSignedForms_spec hf
  rw [hwidth] at h ⊢
  exact exec_pack_bits hop hwf h

/-! ## Two PACKs of one width -/

/-- PACK's value operand depends on DATA's low `W` bits only (R31). -/
theorem packValue_congr {d e : Data} {W : Nat} (h : ∀ k, k < W → d.getLsbD k = e.getLsbD k) :
    packValue d W = packValue e W := by
  have hslice : d.extractLsb' 0 W = e.extractLsb' 0 W :=
    BitVec.eq_of_getLsbD_eq fun k hk => by simp [hk, h k hk]
  rw [packValue_eq_extractLsb', packValue_eq_extractLsb', hslice]

/-- Putting the unit in hand back twice is putting back the second one. -/
theorem setUnit_setUnit (s : State) (r r' : PkuUnit) : (s.setUnit r).setUnit r' = s.setUnit r' :=
  congrArg (fun us => { s with units := us }) (List.set_set _)

/-- What a unit performs does not depend on its DATA. -/
theorem performing_setData {s : State} {r : PkuUnit} {W : Nat} (h : Performing s r W) (d : Data) :
    Performing (s.setUnit { r with data := d }) { r with data := d } W := by
  obtain ⟨hunit, hbusy, hfits, hraced⟩ := h
  exact ⟨setUnit_unit? hunit _, hbusy, hfits, hraced⟩

/-- Two PACKs of one width, of DATA that agree on the field's bits, write the same memory (R31, R112). -/
theorem exec_pack_pair {i j : Instr} (hi : i.op = .pack) (hj : j.op = .pack) {s : State} {r : PkuUnit} (d : Data)
    (hwidth : typeWidth r.ptrw j.typeCode = typeWidth r.ptrw i.typeCode)
    (h : Performing s r (typeWidth r.ptrw i.typeCode))
    (hd : ∀ k, k < typeWidth r.ptrw i.typeCode → d.getLsbD k = r.data.getLsbD k) :
    ∃ m : Memory,
      exec i s = .next { s.setUnit { r with status := finishedStatus r.status } with mem := m } ∧
      exec j (s.setUnit { r with data := d }) =
        .next { s.setUnit { r with data := d, status := finishedStatus r.status } with mem := m } := by
  refine ⟨_, exec_pack_done hi h, ?_⟩
  rw [← hwidth] at h
  rw [exec_pack_done hj (performing_setData h d), setUnit_setUnit]
  dsimp only
  rw [hwidth, packValue_congr hd, state_setUnit_mem]

/-- Both commands of every pair are PACKs, with the width of their type codes (R100). -/
theorem packPairs_spec {f : Instr × Instr × (PtrWidth → Nat)} (hf : f ∈ packPairs) :
    f.1.op = .pack ∧ f.2.1.op = .pack ∧
      ∀ p, f.2.2 p = typeWidth p f.1.typeCode ∧ f.2.2 p = typeWidth p f.2.1.typeCode := by
  simp only [packPairs, List.mem_cons, List.not_mem_nil, or_false] at hf
  rcases hf with rfl | rfl | rfl | rfl | rfl | rfl <;> exact ⟨rfl, rfl, fun _ => ⟨rfl, rfl⟩⟩

/-- Settles O19: the commands of a pair are PACKs of one width (`packPairs_spec`), so they insert the same value
(`exec_pack_pair`). -/
theorem signedPackWritesUnsignedBytes : Obligations.SignedPackWritesUnsignedBytes := by
  intro f hf s r d h hd
  obtain ⟨hi, hj, hwidth⟩ := packPairs_spec hf
  obtain ⟨hwi, hwj⟩ := hwidth r.ptrw
  rw [hwi] at h hd
  exact exec_pack_pair hi hj d (hwj.symm.trans hwi) h hd

end Sys2Proof.Machine
end

section
/-! Composite layouts (45_composite.md): the widths (O56) and the leaves (O57) of a type, the host sequence that issues them
(O58, O59), and the order of the leaves' PACKs (O60). -/

namespace Sys2Proof.Machine

open Sys2Proof

/-! ## Order of the PACKs -/

theorem apart_symm {l l' : LeafValue} (h : Apart l l') : Apart l' l := Or.symm h

/-- The memory after a list of PACKs at disjoint ranges does not depend on their order: two neighbours commute
(`insertField_comm`), and every order is reached by swaps of neighbours (R207). -/
theorem insertLeaves_perm (base : Nat) {ls ls' : List LeafValue} (hperm : ls.Perm ls') {m : Memory}
    (hwf : Memory.wf m = true) (hapart : ls.Pairwise Apart) : insertLeaves base m ls = insertLeaves base m ls' := by
  induction hperm generalizing m with
  | nil => rfl
  | cons l _ ih => exact ih (insertField_wf hwf base l.off l.width l.value) hapart.of_cons
  | swap l l' ls =>
    have hdisjoint : Apart l' l := List.rel_of_pairwise_cons hapart List.mem_cons_self
    exact congrArg (insertLeaves base · ls)
      (insertField_comm hwf base l'.off l'.width l'.value l.off l.width l.value hdisjoint)
  | trans hperm _ ih ih' => exact (ih hwf hapart).trans (ih' hwf (hapart.perm hperm apart_symm))

/-- Settles O60, by induction over the permutation (`insertLeaves_perm`). -/
theorem leafOrderDoesNotMatter : Obligations.LeafOrderDoesNotMatter :=
  fun base _ _ _ hwf hapart hperm => insertLeaves_perm base hperm hwf hapart

/-! ## Widths -/

/-- The width of a tuple is the sum of its members' (R201). -/
theorem tyWidth_tupleOf (p : PtrWidth) (ts : List Ty) : tyWidth p (tupleOf ts) = (ts.map (tyWidth p)).sum := by
  induction ts with
  | nil => rfl
  | cons t ts ih => rw [tupleOf, tyWidth, ih, List.map_cons, List.sum_cons]

/-- Settles O56: `tyWidth`'s own equations, and the sum over a tuple's members (`tyWidth_tupleOf`). -/
theorem compositeWidthsAdd : Obligations.CompositeWidthsAdd :=
  fun p _ _ _ ts _ => ⟨rfl, rfl, rfl, tyWidth_tupleOf p ts, rfl⟩

/-! ## Leaves -/

/-- The total width of a list of primitive types (R201). -/
def codesWidth (p : PtrWidth) (tcs : List TypeCode) : Nat := (tcs.map (typeWidth p)).sum

/-- Primitive fields one after another from offset `o`, without gaps (R205). `tyLeaves_eq_placed` says that a type's leaves
are its primitive types placed so. -/
def placed (p : PtrWidth) : Nat → List TypeCode → List (Nat × TypeCode)
  | _, [] => []
  | o, tc :: tcs => (o, tc) :: placed p (o + typeWidth p tc) tcs

section
variable (p : PtrWidth)

theorem codesWidth_cons (tc : TypeCode) (tcs : List TypeCode) :
    codesWidth p (tc :: tcs) = typeWidth p tc + codesWidth p tcs := by
  rw [codesWidth, codesWidth, List.map_cons, List.sum_cons]

theorem codesWidth_append (tcs tcs' : List TypeCode) :
    codesWidth p (tcs ++ tcs') = codesWidth p tcs + codesWidth p tcs' := by
  rw [codesWidth, codesWidth, codesWidth, List.map_append, List.sum_append]

/-- WIDTH is the total width of the type's primitive types (R201). -/
theorem codesWidth_tyCodes (ty : Ty) : codesWidth p (tyCodes ty) = tyWidth p ty := by
  induction ty with
  | prim tc => rfl
  | array e n ih =>
    rw [tyCodes, tyWidth, ← ih]
    simp [codesWidth, List.sum_flatten]
  | unit => rfl
  | cons h t ihh iht => rw [tyCodes, tyWidth, codesWidth_append, ihh, iht]

theorem placed_append (o : Nat) (tcs tcs' : List TypeCode) :
    placed p o (tcs ++ tcs') = placed p o tcs ++ placed p (o + codesWidth p tcs) tcs' := by
  induction tcs generalizing o with
  | nil => rfl
  | cons tc tcs ih => rw [List.cons_append, placed, ih, placed, codesWidth_cons, Nat.add_assoc, List.cons_append]

/-- The leaves of a composite are its primitive types one after another from its offset: what follows an element or a member
begins at the end of its last leaf (R202, R203, R205). -/
theorem tyLeaves_eq_placed (ty : Ty) (o : Nat) : tyLeaves p ty o = placed p o (tyCodes ty) := by
  induction ty generalizing o with
  | prim tc => rfl
  | array e n ih =>
    simp only [tyLeaves, tyCodes, ih]
    induction n with
    | zero => rfl
    | succ n ihn =>
      have hwidth : codesWidth p (List.replicate n (tyCodes e)).flatten = n * tyWidth p e :=
        codesWidth_tyCodes p (.array e n)
      rw [List.range_succ, List.flatMap_append, ihn, List.replicate_succ', List.flatten_concat, placed_append, hwidth,
        List.flatMap_singleton]
  | unit => rfl
  | cons h t ihh iht => rw [tyLeaves, tyCodes, placed_append, ihh, iht, codesWidth_tyCodes]

theorem map_snd_placed (o : Nat) (tcs : List TypeCode) : (placed p o tcs).map Prod.snd = tcs := by
  induction tcs generalizing o with
  | nil => rfl
  | cons tc tcs ih => rw [placed, List.map_cons, ih]

/-- The widths of placed fields are those of their types. -/
theorem map_width_placed (o : Nat) (tcs : List TypeCode) :
    (placed p o tcs).map (fun l => typeWidth p l.2) = tcs.map (typeWidth p) := by
  calc (placed p o tcs).map (fun l => typeWidth p l.2)
    _ = ((placed p o tcs).map Prod.snd).map (typeWidth p) := by rw [List.map_map, Function.comp_def]
    _ = tcs.map (typeWidth p) := by rw [map_snd_placed]

/-- A placed field begins where the fields before it end (R205). -/
theorem offset_of_placed_getElem? {o k : Nat} {tcs : List TypeCode} {l : Nat × TypeCode}
    (h : (placed p o tcs)[k]? = some l) : l.1 = o + codesWidth p (tcs.take k) := by
  induction tcs generalizing o k with
  | nil => cases h
  | cons tc tcs ih =>
    cases k with
    | zero =>
      cases h
      rfl
    | succ k => rw [ih h, List.take_succ_cons, codesWidth_cons, Nat.add_assoc]

/-- A placed field ends at or below the end of the last one. -/
theorem placed_end_le {o : Nat} {tcs : List TypeCode} {l : Nat × TypeCode} (h : l ∈ placed p o tcs) :
    l.1 + typeWidth p l.2 ≤ o + codesWidth p tcs := by
  induction tcs generalizing o with
  | nil => cases h
  | cons tc tcs ih =>
    rw [codesWidth_cons]
    rcases List.mem_cons.mp h with rfl | htail
    · dsimp only
      omega
    · have hle := ih htail
      omega

end

/-- Settles O57: the leaves are the primitive types placed one after another (`tyLeaves_eq_placed`). -/
theorem compositeLeavesTile : Obligations.CompositeLeavesTile := by
  intro p ty o
  rw [tyLeaves_eq_placed, ← codesWidth_tyCodes]
  refine ⟨map_snd_placed p o _, congrArg List.sum (map_width_placed p o _), fun k l hl => ?_⟩
  rw [List.map_take, map_width_placed, ← List.map_take]
  exact offset_of_placed_getElem? p hl

/-! ## The host's sequence -/

section
variable {p : PtrWidth} {ty : Ty} (u : Nat) (o len : Expr) (fail : Nat)

/-- A type without leaves issues nothing (R204). -/
theorem packComposite_of_no_leaves (h : tyLeaves p ty 0 = []) : packComposite p u ty o len fail [] = some [] :=
  (if_pos (congrArg List.length h)).trans (if_pos h)

theorem unpackComposite_of_no_leaves (h : tyLeaves p ty 0 = []) : unpackComposite p u ty o len fail [] = some [] :=
  (if_pos (congrArg List.length h)).trans (if_pos h)

/-- A type with leaves issues the check, then one `pack` a leaf (R205, R206). -/
theorem packComposite_of_leaves (h : tyLeaves p ty 0 ≠ []) {vs : List Expr}
    (hlen : vs.length = (tyLeaves p ty 0).length) :
    packComposite p u ty o len fail vs = some (capacityLine (tyWidth p ty) o len fail ::
      List.zipWith (fun l v => HostLine.pack u l.2 (.add o (.lit l.1)) v) (tyLeaves p ty 0) vs) :=
  (if_pos hlen.symm).trans (if_neg h)

/-- A type with leaves issues the check, then one `unpack` a leaf (R205, R206). -/
theorem unpackComposite_of_leaves (h : tyLeaves p ty 0 ≠ []) {xs : List Var}
    (hlen : xs.length = (tyLeaves p ty 0).length) :
    unpackComposite p u ty o len fail xs = some (capacityLine (tyWidth p ty) o len fail ::
      List.zipWith (fun l x => HostLine.unpack u l.2 (.add o (.lit l.1)) x) (tyLeaves p ty 0) xs) :=
  (if_pos hlen.symm).trans (if_neg h)

end

/-- Settles O59: neither type has a leaf. -/
theorem emptyCompositeIssuesNothing : Obligations.EmptyCompositeIssuesNothing := by
  intro p u e o len fail
  have hunit : tyLeaves p .unit 0 = [] := rfl
  have harray : tyLeaves p (.array e 0) 0 = [] := rfl
  exact ⟨packComposite_of_no_leaves u o len fail hunit, packComposite_of_no_leaves u o len fail harray,
    unpackComposite_of_no_leaves u o len fail hunit, unpackComposite_of_no_leaves u o len fail harray⟩

/-- Two lists of one length, zipped: one entry for each place, made of the two entries there. -/
theorem zipWith_spec {α β γ : Type} (f : α → β → γ) {as : List α} {bs : List β} (hlen : bs.length = as.length) :
    (List.zipWith f as bs).length = bs.length ∧
      ∀ (k : Nat) (a : α) (b : β), as[k]? = some a → bs[k]? = some b →
        (List.zipWith f as bs)[k]? = some (f a b) := by
  refine ⟨by rw [List.length_zipWith, hlen, Nat.min_self], fun k a b ha hb => ?_⟩
  rw [List.getElem?_zipWith, ha, hb]

/-- The check jumps to the label exactly if o + WIDTH > 8 * LEN (R206). -/
theorem runStmt_capacityCheck {s : State} {o len : Expr} {a b : Int} {fail k : Nat} (w : Nat)
    (ho : evalExpr s.host.vars o = some a) (hlen : evalExpr s.host.vars len = some b)
    (hfail : s.host.prog.findIdx? (HostStmt.defines fail) = some k) :
    runStmt (.ifGoto (.add o (.lit w)) .gt (.mul (.lit 8) len) fail) s = .next { s with
      host := { s.host with pos := if 8 * b < a + w then k else s.host.pos + 1 } } := by
  simp only [runStmt, evalExpr, ho, hlen, hfail, evalCmp, decide_eq_true_eq]
  split <;> rfl

/-- Settles O58: every leaf ends at or below the composite's end (`placed_end_le`), the sequences are
`packComposite_of_leaves` and `unpackComposite_of_leaves`, and the check is `runStmt_capacityCheck`. -/
theorem compositeCheckCoversLeaves : Obligations.CompositeCheckCoversLeaves := by
  intro p ty
  refine ⟨fun o len hfits l hl => ?_, fun u o len fail => ⟨fun vs hne hlen => ?_, fun xs hne hlen => ?_, ?_⟩⟩
  · rw [tyLeaves_eq_placed] at hl
    rw [← codesWidth_tyCodes] at hfits
    exact (placed_end_le p hl).trans hfits
  · exact ⟨_, packComposite_of_leaves u o len fail hne hlen, zipWith_spec _ hlen⟩
  · exact ⟨_, unpackComposite_of_leaves u o len fail hne hlen, zipWith_spec _ hlen⟩
  · exact fun s a b k ho hlen hfail => runStmt_capacityCheck _ ho hlen hfail

end Sys2Proof.Machine
end

section
/-! Faults at issue and halting (60_exceptions.md): ECAP (O7), EWRAP (O8), EILL (O9), and what a halted unit does (O10). -/

namespace Sys2Proof.Machine

open Sys2Proof

/-! ## Faults at issue -/

/-- The issue of a command is reached in two ways: by the command itself, and by a CMD write of its word that is not ignored
(R35, R111). -/
theorem issue_by_exec_and_cmdWrite {i : Instr} {s t : State} {u : Nat} {r : PkuUnit} (hu : s.units[u]? = some r)
    (hb : r.status.busy = false) (ht : issueCommand i (typeWidth r.ptrw i.typeCode) { s with cur := u } r = t) :
    exec i { s with cur := u } = .next t ∧ (r.status.halted = false → writeReg u .cmd (encode i) s = .next t) := by
  have hexec : exec i { s with cur := u } = .next t := ht ▸ exec_idle i (s := { s with cur := u }) hu hb
  exact ⟨hexec, fun hh => (writeReg_cmd hu hb hh (decode_encode i)).trans hexec⟩

/-- Settles O7: the issue ends at the capacity check (`issueCommand_capacity`). -/
theorem shortBufferRaisesEcap : Obligations.ShortBufferRaisesEcap := by
  intro i s u r hu hb hshort
  have hissue := issueCommand_capacity (i := i) (s := { s with cur := u }) (capacityOk_false hshort)
  exact ⟨_, rfl, issue_by_exec_and_cmdWrite hu hb hissue⟩

/-- Settles O8: the issue passes the capacity check and ends at the window check (`issueCommand_window`). -/
theorem wrappingWindowRaisesEwrap : Obligations.WrappingWindowRaisesEwrap := by
  intro i s u r hu hb hcapacity hwraps
  have hissue := issueCommand_window (i := i) (s := { s with cur := u }) (capacityOk_iff.mpr hcapacity)
    (windowOk_false hwraps)
  exact ⟨_, rfl, issue_by_exec_and_cmdWrite hu hb hissue⟩

/-- The decoder rejects every word that is none of the 26 (R75). -/
theorem decode_eq_error {w : Word} (h : ∀ i, w ≠ encode i) : ∃ e, decode w = .error e := by
  cases hd : decode w with
  | error e => exact ⟨e, rfl⟩
  | ok i => exact absurd (decode_eq_ok_iff.mp hd) (h i)

/-- A CMD write, not ignored, of a word that the decoder rejects (R75, R111). -/
theorem writeReg_cmd_illegal {s : State} {u : Nat} {r : PkuUnit} {w : Word} {e : DecodeError}
    (hu : s.units[u]? = some r) (hb : r.status.busy = false) (hh : r.status.halted = false)
    (hd : decode w = .error e) : writeReg u .cmd w s = .next (issueIllegal w { s with cur := u } r) := by
  simp [writeReg, hu, hb, hh, writeCmd, hd]

/-- Settles O9: the decoder rejects the word (`decode_eq_error`), so no check is made (`writeReg_cmd_illegal`). -/
theorem illegalWordRaisesEill : Obligations.IllegalWordRaisesEill := by
  intro s u r w hu hb hh hnone
  obtain ⟨e, hd⟩ := decode_eq_error hnone
  exact writeReg_cmd_illegal hu hb hh hd

/-! ## A halted unit -/

/-- A unit is halted exactly when one of its four error bits is set (R27, R228). -/
theorem halted_iff {st : Status} :
    st.halted = true ↔ st.ecap = true ∨ st.eill = true ∨ st.ewrap = true ∨ st.ebusy = true := by
  simp only [Status.halted, Bool.or_eq_true, or_assoc]

/-- A CMD write to a halted unit that is not busy is ignored (R35, R228). -/
theorem writeReg_cmd_halted {s : State} {u : Nat} {r : PkuUnit} (hu : s.units[u]? = some r)
    (hb : r.status.busy = false) (hh : r.status.halted = true) (w : Word) : writeReg u .cmd w s = .next s := by
  simp [writeReg, hu, hb, hh]

/-- Settles O10: idle, CMD is ignored (`writeReg_cmd_halted`) and the operand registers are not (`writeReg_operand`); busy,
the completion step does not look at the error bits (`exec_busy_answers`). -/
theorem haltedUnitIgnoresCommands : Obligations.HaltedUnitIgnoresCommands := by
  intro s u r hu herror
  refine ⟨fun hb w => ⟨writeReg_cmd_halted hu hb (halted_iff.mpr herror) w, fun reg hreg => ?_⟩,
    fun i hb hd hfits => ?_⟩
  · rw [writeReg_operand hreg hu, hb]
    rfl
  · obtain ⟨d, m, n, hanswer⟩ := exec_busy_answers i (s := { s with cur := u }) hu hb (spanInMem_of_fits (s := s) hfits)
    exact ⟨_, _, (completeTurn_busy hu hb hd).trans hanswer,
      List.getElem?_set_self (List.getElem?_eq_some_iff.mp hu).1, rfl⟩

end Sys2Proof.Machine
end

section
/-! The unit's reset (70_reset_and_hazards.md, R250 to R252): of a unit that is not busy (O41), and of a busy one, whose command
is abandoned (O42). -/

namespace Sys2Proof.Machine

open Sys2Proof

/-! ## The three ways a reset answers -/

/-- Reset of a unit that is not busy (R250, R252). -/
theorem resetUnit_idle {s : State} {u : Nat} {r : PkuUnit} (hu : s.units[u]? = some r) (hb : r.status.busy = false) :
    resetUnit u s = .next (s.putUnit u (PkuUnit.ofReset r.ptrw r.regbase)) := by
  simp [resetUnit, hu, hb]

theorem decode?_of_inFlight {r : PkuUnit} {i : Instr} (h : r.inFlight = some i) : decode? r.cmd = some i := by
  simpa [PkuUnit.inFlight, busy_of_inFlight h] using h

/-- Reset of a unit with an UNPACK in flight (R251). -/
theorem resetUnit_unpack {s : State} {u : Nat} {r : PkuUnit} {i : Instr} (hu : s.units[u]? = some r)
    (h : r.inFlight = some i) (hi : i.op = .unpack) :
    resetUnit u s = .next (s.putUnit u (PkuUnit.ofReset r.ptrw r.regbase)) := by
  simp [resetUnit, hu, busy_of_inFlight h, decode?_of_inFlight h, hi]

/-- Reset of a unit with a PACK in flight (R251): one draw decides each byte of the span. -/
theorem resetUnit_pack {s : State} {u : Nat} {r : PkuUnit} {i : Instr} (hu : s.units[u]? = some r)
    (h : r.inFlight = some i) (hi : i.op = .pack) (hfits : Fits s.addrw (typeWidth r.ptrw i.typeCode) r) :
    resetUnit u s = .next { s.putUnit u (PkuUnit.ofReset r.ptrw r.regbase) with
      mem := tear (insertField s.mem r.base.toNat r.off.toNat (typeWidth r.ptrw i.typeCode)
        (packValue r.data (typeWidth r.ptrw i.typeCode))) r.raced s.mem r.span s.draws
      draws := s.draws + r.span.length } := by
  simp [resetUnit, hu, busy_of_inFlight h, decode?_of_inFlight h, hi, spanInMem_of_fits hfits, span_of_inFlight h]

/-! ## What a reset leaves -/

/-- Settles O41: a unit that is not busy has nothing to abandon (`resetUnit_idle`). -/
theorem resetKeepsMemory : Obligations.ResetKeepsMemory :=
  fun _ _ _ hu hb => resetUnit_idle hu hb

/-- Settles O42: an UNPACK leaves memory alone; a PACK leaves it torn, outside the span as before (`tear_read_other`), and
inside it old or new byte by byte (`tear_read`). -/
theorem resetAbandonsCommand : Obligations.ResetAbandonsCommand := by
  intro s u r i hwf hu hflight hfits
  cases hi : i.op with
  | unpack =>
    exact ⟨s.mem, s.draws, resetUnit_unpack hu hflight hi, fun _ => rfl, fun _ _ => rfl, fun _ _ _ => .inl rfl⟩
  | pack =>
    exact ⟨_, _, resetUnit_pack hu hflight hi hfits, nofun, fun _ hout => tear_read_other hout _,
      fun _ hin hraced => tear_read hwf (span_nodup r) hin hraced _⟩

end Sys2Proof.Machine
end

section
/-! The words written out in the opcode table (30_encoding.md, section 2). -/

namespace Sys2Proof.Machine

open Sys2Proof

/-- Settles O1: a word decodes to a command exactly when it is the encoder's word of it (`decode_eq_ok_iff`), and the encoder
gives the fourteen commands the table's words. -/
theorem tableWordsDecode : Obligations.TableWordsDecode := by
  simp only [Obligations.TableWordsDecode, decode_eq_ok_iff]
  decide

end Sys2Proof.Machine
end
